-- ==== Sys2Proof/Word.lean ====
section
/-! DEFINITION. The word types of the Edge-to-Sample Decoder (spec/00_scope.md R4, spec/10_state.md R11). -/

namespace Sys2Proof

/-- One frame byte or checksum (spec/10_state.md R14, R15). -/
abbrev Byte := BitVec 8

/-- One capture-buffer entry, a tick count of `TS_WIDTH` = 32 bits (spec/20_memory.md R40). Also the width of `W`. -/
abbrev Timestamp := BitVec 32

/-- A result register: tenths of a percent or of a degree (spec/10_state.md R25, R26). -/
abbrev Tenths := BitVec 16

/-- The 4-bit code in `PHASE` (spec/30_encoding.md R67). -/
abbrev PhaseWord := BitVec 4

end Sys2Proof
end

