-- ==== Sys2Proof/Config.lean ====
section
/-! DEFINITION. What is fixed for this block (spec/00_scope.md R4) and the free values the spec leaves open
(spec/10_state.md R32; what DIFF and PACK would need past the last bit, spec/20_memory.md R46, spec/10_state.md R21). -/

namespace Sys2Proof

/-- `CAPTURE_LEN`: number of entries of the capture buffer (R4). -/
abbrev Config.captureLen : Nat := 43

/-- `DHT_EDGE_SKIP`: handshake entries that take no part in decoding (R4, R100). -/
abbrev Config.edgeSkip : Nat := 2

/-- `N_BITS`: bits of one frame; 40 and not 41 (R4, spec/90_conflicts.md C1). -/
abbrev Config.nBits : Nat := 40

/-- `N_BYTES`: bytes of one frame (R4). -/
abbrev Config.nBytes : Nat := 5

/-- `THRESHOLD_US`, compared in ticks (R4, R5). -/
abbrev Config.thresholdTicks : Timestamp := 100#32

/-- `TS_WIDTH`; a parameter 8..32 that the spec lets a model fix (R4, D6). Log entry 9. -/
abbrev Config.tsWidth : Nat := 32

/-- `RESET_HUM`: what `HUM` holds after reset number `n`; the spec leaves it any 16-bit value, drawn afresh at every
reset (R32, U4). A free value: nothing constrains it. Log entry 5. -/
opaque Config.resetHum : Nat → Tenths

/-- `RESET_TEMP`: what `TEMP` holds after reset number `n` (R32, U4). A free value: nothing constrains it.
Log entry 5. -/
opaque Config.resetTemp : Nat → Tenths

/-- What DIFF takes for an entry whose index is past the buffer's end, by that index. The spec gives no such entry and
no value for it (spec/20_memory.md R41, R46). A free value: nothing constrains it. Log entry 8. -/
opaque Config.absentEntry : Nat → Timestamp

/-- What `I` holds after an increment whose result is no value of `I`, by that result; only 41 comes up. The spec says
that it is never written and gives no value in its place (spec/10_state.md R21). A free value: nothing constrains it.
Log entry 8. -/
opaque Config.indexPastEnd : Nat → Fin 41

end Sys2Proof
end

