-- ==== Sys2Proof/Syntax.lean ====
section
/-! DEFINITION. The eleven micro-operations (spec/30_encoding.md R66), the names of the fourteen registers
(spec/10_state.md R11), and the three ways the spec writes a stimulus (R71). -/

namespace Sys2Proof

/-- The micro-operations of the sequencer, in the order of their codes 0 to 10 (R66). None has an operand field (R67).
This type is also the type of the register `PHASE`: R70 gives it exactly these eleven values. -/
inductive Instr where
  | idle
  | init
  | diff
  | cmp
  | pack
  | sum
  | chk
  | hum
  | tmp
  | ok
  | done
  deriving DecidableEq, Repr

/-- The fourteen registers by name (spec/10_state.md R11). -/
inductive Reg where
  | phase | i | w | bit | b0 | b1 | b2 | b3 | b4 | sum | matched | status | hum | temp
  deriving DecidableEq, Repr

/-- A stimulus, in the three notations of R71: all 43 entries; the entry `CB[2]` and the 40 widths; or `CB[2]`, the
width used for a 0 bit, the width used for a 1 bit, and the five frame bytes. -/
inductive Stimulus where
  | entries (cb : List Timestamp)
  | widths (base : Timestamp) (pw : List Timestamp)
  | frame (base wZero wOne : Timestamp) (b0 b1 b2 b3 b4 : Byte)
  deriving DecidableEq, Repr

end Sys2Proof
end

