-- ==== Sys2Proof/WellFormed.lean ====
section
/-! DEFINITION. Well-formedness of operations, of PHASE words and of stimuli, as Bools. -/

namespace Sys2Proof

/-- Every micro-operation is well formed: none has an operand (spec/30_encoding.md R67). -/
def Instr.wellFormed : Instr → Bool
  | .idle | .init | .diff | .cmp | .pack | .sum | .chk | .hum | .tmp | .ok | .done => true

/-- A PHASE word that selects a micro-operation: codes 0 to 10 (R66); 11 to 15 select none (R70). -/
def PhaseWord.wellFormed (w : PhaseWord) : Bool := decide (w.toNat ≤ 10)

/-- A stimulus the notation of R71 admits. Entries: exactly 43 of them (spec/20_memory.md R40). Widths: exactly 40
(spec/41_comparator_bit_decoder.md R104). Frame: the width for a 0 is below the threshold and the width for a 1 is not
(spec/30_encoding.md R61). -/
def Stimulus.wellFormed : Stimulus → Bool
  | .entries cb => decide (cb.length = Config.captureLen)
  | .widths _ pw => decide (pw.length = Config.nBits)
  | .frame _ wZero wOne _ _ _ _ _ => decide (wZero.toNat < 100) && decide (100 ≤ wOne.toNat)

end Sys2Proof
end

