-- ==== Sys2Proof/Decode.lean ====
section
/-! DEFINITION. The decoder of the 4-bit PHASE word and the encoder after it (spec/30_encoding.md R66, R67, R70;
spec/opcode_table.json). -/

namespace Sys2Proof

/-- Why a word is no micro-operation. -/
inductive DecodeError where
  /-- A PHASE code 11 to 15, which selects no micro-operation (R70). -/
  | reservedPhaseCode (code : PhaseWord)
  /-- A byte with a bit set above the four bits that PHASE has (R67). -/
  | widerThanPhase (byte : Byte)
  deriving DecidableEq, Repr

/-- The micro-operation a PHASE word selects (table of R66). -/
def decodePhase (w : PhaseWord) : Except DecodeError Instr :=
  match w.toNat with
  | 0 => .ok .idle
  | 1 => .ok .init
  | 2 => .ok .diff
  | 3 => .ok .cmp
  | 4 => .ok .pack
  | 5 => .ok .sum
  | 6 => .ok .chk
  | 7 => .ok .hum
  | 8 => .ok .tmp
  | 9 => .ok .ok
  | 10 => .ok .done
  | _ => .error (.reservedPhaseCode w)

/-- The decoder on a whole byte: the low four bits are the PHASE word, and no bit stands above them (log entry 13). -/
def decodeByte (b : Byte) : Except DecodeError Instr :=
  if b.toNat < 16 then decodePhase (b.setWidth 4) else .error (.widerThanPhase b)

/-- The first micro-operation of a run of bytes and the bytes after it; an operation is one byte wide here, and no
bytes decode to nothing. -/
def decodeBytes : List Byte → Option (Except DecodeError (Instr × List Byte))
  | [] => none
  | b :: rest => some ((decodeByte b).map fun i => (i, rest))

/-- The decoder on a word numbered as spec/opcode_table.json numbers it; `none` where it is refused. -/
def decodeTableWord (nbits w : Nat) : Option Instr :=
  if w < 2 ^ nbits ∧ w < 256 then (decodeByte (BitVec.ofNat 8 w)).toOption else none

/-- The PHASE word of a micro-operation, written from the table of R66. -/
def encode : Instr → PhaseWord
  | .idle => 0b0000#4
  | .init => 0b0001#4
  | .diff => 0b0010#4
  | .cmp => 0b0011#4
  | .pack => 0b0100#4
  | .sum => 0b0101#4
  | .chk => 0b0110#4
  | .hum => 0b0111#4
  | .tmp => 0b1000#4
  | .ok => 0b1001#4
  | .done => 0b1010#4

/-- The byte that holds a micro-operation's PHASE word. -/
def encodeByte (i : Instr) : Byte := (encode i).setWidth 8

end Sys2Proof
end

