-- ==== Sys2Proof/Machine/State.lean ====
section
/-! DEFINITION. The state of the block (spec/10_state.md R10, R11), the capture buffer it reads (spec/20_memory.md R40),
the inputs of its coming steps (spec/40_sequence_control.md R80, R81), and the reasons a step can stop. -/

namespace Sys2Proof.Machine

/-- The codes of `STATUS` (spec/30_encoding.md R64). `timeout` is never produced by the block (R69); code 3 has no
constructor (spec/93_implementation_defined.md U9). -/
inductive Status where
  | ok
  | checksumError
  | timeout
  deriving DecidableEq, Repr

/-- The capture buffer's contents: pairs of entry index and entry, indices strictly rising and below 43, no entry equal
to what an unlisted index reads as. The unit is the whole entry; there is no byte address (R40, R44). Log entry 6. -/
abbrev Memory := List (Nat × Timestamp)

/-- One write of the host to one of the 43 entries (spec/60_exceptions.md R156). -/
structure HostWrite where
  index : Fin 43
  value : Timestamp
  deriving DecidableEq, Repr

/-- The inputs of one step: the ports `rst` and `start` at that step (R81), and the entries the host wrote since the
step before (R156). An absent port reads 0 (R71). Log entries 1 and 2. -/
structure StepInput where
  rst : Bool := false
  start : Bool := false
  writes : List HostWrite := []
  deriving DecidableEq, Repr

/-- The fourteen registers of R11, the capture buffer, the inputs to come, and the model's own reset counter. -/
structure State where
  /-- `PHASE`: the micro-operation that executes next (R20). -/
  phase : Instr
  /-- `I`: index of the bit being decoded, 0..40 (R21, R70). -/
  i : Fin 41
  /-- `W`: the current pulse width (R12). -/
  w : Timestamp
  /-- `BIT`: the current decoded bit (R13). -/
  bit : Bool
  /-- `B0`: humidity high (R14). -/
  b0 : Byte
  /-- `B1`: humidity low (R14). -/
  b1 : Byte
  /-- `B2`: temperature high, bit 7 the sign flag (R14). -/
  b2 : Byte
  /-- `B3`: temperature low (R14). -/
  b3 : Byte
  /-- `B4`: received checksum (R14). -/
  b4 : Byte
  /-- `SUM`: computed checksum (R15). -/
  sum : Byte
  /-- `MATCH`: checksum verdict (R16). -/
  matched : Bool
  /-- `STATUS` (R24). -/
  status : Status
  /-- `HUM`: humidity in tenths of a percent, unsigned (R25). -/
  hum : Tenths
  /-- `TEMP`: temperature in tenths of a degree, two's complement (R26). -/
  temp : Tenths
  /-- `CB[0..42]`, owned by the host (R40). -/
  cb : Memory
  /-- The inputs of the coming steps, the next one first; past its end every port reads 0. -/
  inputs : List StepInput
  /-- The model's own field: the number of resets so far, which selects the draw of `RESET_HUM` and `RESET_TEMP`
  (U4). Log entry 5. -/
  resets : Nat
  deriving DecidableEq, Repr

/-- Why the machine stops: it has no reason to. The step function has no fault outcome (spec/60_exceptions.md R140), so
this type has no constructor, and nobody raises one. -/
inductive Fault where
  deriving DecidableEq, Repr

/-- Why the model gives no meaning. -/
inductive Refusal where
  /-- Raised by exec for an instruction without a meaning; no arm does so now. Safe. -/
  | notModelled (mnemonic : String)
  /-- Raised by step when the host writes one of `CB[2..42]` from the acceptance of `start` until `done`: the spec lets
  a model refuse such executions (R53, U5). Safe. -/
  | captureWriteDuringDecode
  /-- Raised by step for a PHASE word that selects no micro-operation (U8, "refuse"). No value of State's type holds
  one, so no step ends here. Safe. -/
  | reservedPhase
  deriving DecidableEq, Repr

/-- The machine right after reset, which power-up applies (spec/70_reset_and_hazards.md R170). Every register as
R30 to R33 state; `HUM` and `TEMP` unspecified, the first draw of the free values (R32); nothing listed in the capture
buffer (log entry 4); no input pending (log entry 1). -/
def State.reset : State where
  phase := .idle
  i := 0
  w := 0
  bit := false
  b0 := 0
  b1 := 0
  b2 := 0
  b3 := 0
  b4 := 0
  sum := 0
  matched := false
  status := .checksumError
  hum := Config.resetHum 0
  temp := Config.resetTemp 0
  cb := []
  inputs := []
  resets := 1

end Sys2Proof.Machine
end

