-- ==== Sys2Proof/Machine/Ops.lean ====
section
/-! DEFINITION. The shared operations over the capture buffer, the inputs and the registers, reset, and the fetch of the
next micro-operation. The block has no exception to take and none to return from (spec/60_exceptions.md R140, R147,
R148), so there is no operation for either. -/

namespace Sys2Proof.Machine

/-! ### The capture buffer -/

/-- What an entry nothing has written reads as. The spec fixes no contents (spec/20_memory.md R48).
DESIGN CHOICE, unsafe, log entry 4. -/
def Memory.unlisted : Timestamp := 0#32

/-- The entry at index `k`, whole (R47). -/
def Memory.read : Memory → Nat → Timestamp
  | [], _ => Memory.unlisted
  | (a, x) :: m, k => if a = k then x else Memory.read m k

/-- The buffer with entry `k` set to `v`, in canonical form. -/
def Memory.write : Memory → Nat → Timestamp → Memory
  | [], k, v => if v = Memory.unlisted then [] else [(k, v)]
  | (a, x) :: m, k, v =>
    if k < a then
      if v = Memory.unlisted then (a, x) :: m else (k, v) :: (a, x) :: m
    else if k = a then
      if v = Memory.unlisted then m else (k, v) :: m
    else (a, x) :: Memory.write m k v

/-- Indices strictly rising from `lo`, all below 43, and no entry equal to what an unlisted index reads as. -/
def Memory.wfFrom : Nat → Memory → Bool
  | _, [] => true
  | lo, (a, x) :: m => decide (lo ≤ a) && decide (a < 43) && decide (x ≠ Memory.unlisted) && Memory.wfFrom (a + 1) m

/-- The canonical form: equal contents are equal lists. -/
def Memory.wf (m : Memory) : Bool := Memory.wfFrom 0 m

/-- The read primitive `CB[k]`: there are 43 entries, and no entry at 43 or above (R40, R41). -/
def State.readEntry (s : State) (k : Nat) : Option Timestamp :=
  if k < 43 then some (Memory.read s.cb k) else none

/-- The entry as DIFF takes it: an index past the buffer's end gives a free value, which no reachable state asks for
(R46). Log entry 8. -/
def State.entryAt (s : State) (k : Nat) : Timestamp := (s.readEntry k).getD (Config.absentEntry k)

/-- The buffer after a run of host writes, in order. -/
def Memory.writeAll (m : Memory) (ws : List HostWrite) : Memory :=
  ws.foldl (fun m w => Memory.write m w.index.val w.value) m

/-! ### The inputs of a step -/

/-- The inputs of the coming step; every port reads 0 past the end of the list (log entry 1). -/
def State.input (s : State) : StepInput := s.inputs.headD {}

/-- Port `rst` at the coming step (spec/40_sequence_control.md R81). -/
def State.rst (s : State) : Bool := s.input.rst

/-- Port `start` at the coming step (R81). -/
def State.start (s : State) : Bool := s.input.start

/-- The host's writes that precede the coming step are in the buffer (R51, log entry 2). -/
def State.landWrites (s : State) : State := { s with cb := Memory.writeAll s.cb s.input.writes }

/-- The coming step's inputs are used up; a `start` is not remembered (R83). -/
def State.advance (s : State) : State := { s with inputs := s.inputs.tail }

/-- `advance` on the next state of an outcome. -/
def advanceOutcome : Host.Outcome State Fault Refusal → Host.Outcome State Fault Refusal
  | .next s => .next s.advance
  | .fault r => .fault r
  | .refused r => .refused r

/-! ### Derived outputs that the operations need -/

/-- `busy` (spec/10_state.md R27). -/
def State.busy (s : State) : Bool := decide (s.phase ≠ .idle)

/-- `done` (R27). -/
def State.done (s : State) : Bool := decide (s.phase = .done)

/-- The host writes one of `CB[2..42]` before the coming step, after the acceptance of `start` and before `done`: what
R51 (a) and R181 forbid. Entries 0 and 1 may change at any time (R181). Log entry 3. -/
def State.racing (s : State) : Bool :=
  s.busy && !s.done && s.input.writes.any fun w => decide (2 ≤ w.index.val)

/-! ### Registers -/

/-- The indexed register read `B[j]` (spec/00_scope.md section 5). -/
def State.getB (s : State) (j : Fin 5) : Byte :=
  match j with
  | 0 => s.b0
  | 1 => s.b1
  | 2 => s.b2
  | 3 => s.b3
  | 4 => s.b4

/-- The indexed register write `B[j] <- v`; the four other bytes keep their values. -/
def State.setB (s : State) (j : Fin 5) (v : Byte) : State :=
  match j with
  | 0 => { s with b0 := v }
  | 1 => { s with b1 := v }
  | 2 => { s with b2 := v }
  | 3 => { s with b3 := v }
  | 4 => { s with b4 := v }

/-- The values INIT gives the working registers (spec/40_sequence_control.md R84), which are also their reset values
(spec/10_state.md R33). `I` is among them; `PHASE`, `STATUS`, `HUM` and `TEMP` are not. -/
def State.clearWork (s : State) : State :=
  { s with
    i := 0, w := 0, bit := false, b0 := 0, b1 := 0, b2 := 0, b3 := 0, b4 := 0, sum := 0, matched := false }

/-- Reset (spec/70_reset_and_hazards.md R170): every register of the block, whatever it held. `HUM` and `TEMP` take a
fresh draw of the free values (R32, R171). The buffer and the inputs are the host's and stay. -/
def State.resetRegs (s : State) : State :=
  { s.clearWork with
    phase := .idle
    status := .checksumError
    hum := Config.resetHum s.resets
    temp := Config.resetTemp s.resets
    resets := s.resets + 1 }

/-! ### Fetch -/

/-- The 4-bit value of `PHASE` (R20). -/
def State.phaseWord (s : State) : PhaseWord := encode s.phase

/-- The micro-operation the coming step executes: the one whose code is in `PHASE`
(spec/40_sequence_control.md R80). -/
def State.fetch (s : State) : Except DecodeError Instr := decodePhase s.phaseWord

end Sys2Proof.Machine
end

