-- ==== Sys2Proof/Machine/Operands.lean ====
section
/-! DEFINITION. The operand forms of the micro-operations: buffer indices, the byte index, the successor of the loop
counter, and the fields assembled from the frame bytes. -/

namespace Sys2Proof.Machine

/-- Index of the timestamp that opens pulse `I`: the skip of 2 and no further offset
(spec/41_comparator_bit_decoder.md R100, R105). -/
def State.openIndex (s : State) : Nat := s.i.val + Config.edgeSkip

/-- Index of the timestamp that closes pulse `I` (R101). -/
def State.closeIndex (s : State) : Nat := s.i.val + Config.edgeSkip + 1

/-- `W`'s new value `(b - a) mod 2^32` from the opening timestamp `a` and the closing one `b`: the subtractor wraps
(R101, R103, D7). -/
def pulseDifference (a b : Timestamp) : Timestamp := b - a

/-- A timestamp of a narrower capture source, zero-extended (spec/20_memory.md R44). -/
def zeroExtendTimestamp {n : Nat} (v : BitVec n) : Timestamp := v.setWidth 32

/-- The target byte `I div 8`; there is none for `I = 40` (spec/42_bit_packer.md R110). -/
def frameByteIndex (i : Fin 41) : Option (Fin 5) :=
  if h : i.val / 8 < 5 then some ⟨i.val / 8, h⟩ else none

/-- `I + 1` (R110), which is at most 40 in every reachable state (spec/10_state.md R21). After `I = 40`, 41 being no
value of `I` (spec/30_encoding.md R70), a free value. Log entry 8. -/
def nextIndex (i : Fin 41) : Fin 41 :=
  if h : i.val + 1 < 41 then ⟨i.val + 1, h⟩ else Config.indexPastEnd (i.val + 1)

/-- PACK's byte: shifted left by one, old bit 7 dropped, the new bit in bit 0 (R110, R113). -/
def shiftIn (b : Byte) (bit : Bool) : Byte := (b <<< 1) ||| (BitVec.ofBool bit).setWidth 8

/-- `B[I div 8]` with `BIT` shifted in; the other bytes keep their values, and so do all five where `I div 8` names
none of them (R110). -/
def State.packBit (s : State) : State :=
  match frameByteIndex s.i with
  | some j => s.setB j (shiftIn (s.getB j) s.bit)
  | none => s

/-- The 8-bit truncated sum of the four payload bytes (spec/43_checksum_validator.md R120). -/
def checksum (b0 b1 b2 b3 : Byte) : Byte := b0 + b1 + b2 + b3

/-- `RH = (B0 << 8) | B1` (spec/30_encoding.md R63). -/
def rawHumidity (b0 b1 : Byte) : Tenths := (b0.setWidth 16 <<< 8) ||| b1.setWidth 16

/-- `S = B2[7]`: 1 means negative (R63). -/
def signFlag (b2 : Byte) : Bool := b2.getLsbD 7

/-- `M = ((B2 & 0x7F) << 8) | B3`, 0..32767 (R63). -/
def magnitude (b2 b3 : Byte) : Tenths := ((b2 &&& 0x7F#8).setWidth 16 <<< 8) ||| b3.setWidth 16

/-- `neg_16(M)` (spec/00_scope.md section 5). -/
def neg16 (m : Tenths) : Tenths := 0#16 - m

/-- `TEMP`'s new value: sign-magnitude to two's complement (spec/44_value_extractor.md R132). -/
def signedTemperature (b2 b3 : Byte) : Tenths :=
  if signFlag b2 then neg16 (magnitude b2 b3) else magnitude b2 b3

end Sys2Proof.Machine
end

