-- ==== Sys2Proof/Machine/Flags.lean ====
section
/-! DEFINITION. The two flags, `BIT` and `MATCH` (spec/10_state.md R13, R16), and the codes of `STATUS`. -/

namespace Sys2Proof.Machine

/-- `BIT`: unsigned, inclusive comparison with the threshold (spec/41_comparator_bit_decoder.md R102, R103). -/
def bitOfWidth (w : Timestamp) : Bool := decide (Config.thresholdTicks.toNat ≤ w.toNat)

/-- `MATCH`: equality of two 8-bit values (spec/43_checksum_validator.md R121). -/
def checksumMatches (sum b4 : Byte) : Bool := decide (sum = b4)

/-- The 2-bit code on port `status` (spec/30_encoding.md R64). -/
def statusCode : Status → BitVec 2
  | .ok => 0b00#2
  | .checksumError => 0b01#2
  | .timeout => 0b10#2

end Sys2Proof.Machine
end

