-- ==== Sys2Proof/Machine/Checksum.lean ====
section
/-! DEFINITION. The checksum validator: SUM, CHK (spec/43_checksum_validator.md). -/

namespace Sys2Proof.Machine

/-- SUM (R120). -/
def execSum (s : State) : Host.Outcome State Fault Refusal :=
  .next { s with sum := checksum s.b0 s.b1 s.b2 s.b3, phase := .chk }

/-- CHK (R121): the verdict, and the branch on it. `STATUS` is not written. -/
def execChk (s : State) : Host.Outcome State Fault Refusal :=
  .next { s with
    matched := checksumMatches s.sum s.b4
    phase := if checksumMatches s.sum s.b4 then .hum else .done }

end Sys2Proof.Machine
end

