-- ==== Sys2Proof/Machine/Comparator.lean ====
section
/-! DEFINITION. The pulse-width comparator and bit decoder: DIFF, CMP (spec/41_comparator_bit_decoder.md). -/

namespace Sys2Proof.Machine

/-- DIFF (R101): `W <- (CB[I+3] - CB[I+2]) mod 2^32`. With `I = 40`, which no reachable state has, `CB[43]` does not
exist and a free value stands for it (log entry 8). -/
def execDiff (s : State) : Host.Outcome State Fault Refusal :=
  .next { s with w := pulseDifference (s.entryAt s.openIndex) (s.entryAt s.closeIndex), phase := .cmp }

/-- CMP (R102): `BIT <- (W ≥ 100)`. -/
def execCmp (s : State) : Host.Outcome State Fault Refusal :=
  .next { s with bit := bitOfWidth s.w, phase := .pack }

end Sys2Proof.Machine
end

