-- ==== Sys2Proof/Machine/Extractor.lean ====
section
/-! DEFINITION. The fixed-point humidity and temperature extractor: HUM, TMP (spec/44_value_extractor.md), and the
physical quantities the two registers denote. -/

namespace Sys2Proof.Machine

/-- HUM (R130). -/
def execHum (s : State) : Host.Outcome State Fault Refusal :=
  .next { s with hum := rawHumidity s.b0 s.b1, phase := .tmp }

/-- TMP (R132). -/
def execTmp (s : State) : Host.Outcome State Fault Refusal :=
  .next { s with temp := signedTemperature s.b2 s.b3, phase := .ok }

/-- The humidity denoted by `HUM`, in percent, an exact rational (R131). -/
def State.humidityPercent (s : State) : Rat := (s.hum.toNat : Rat) / 10

/-- The temperature denoted by `TEMP`, in degrees Celsius, an exact rational (R133). -/
def State.temperatureCelsius (s : State) : Rat := (s.temp.toInt : Rat) / 10

end Sys2Proof.Machine
end

