-- ==== Sys2Proof/Machine/Packer.lean ====
section
/-! DEFINITION. The bit-to-byte packer: PACK (spec/42_bit_packer.md). -/

namespace Sys2Proof.Machine

/-- PACK's successor, tested on `I` before the increment (R110). -/
def packSuccessor (i : Fin 41) : Instr := if i.val = 39 then .sum else .diff

/-- PACK (R110): shift `BIT` into `B[I div 8]` and count it. With `I = 40`, which no reachable state has, there is no
`B[5]` to write and `I + 1` is a free value (log entry 8). -/
def execPack (s : State) : Host.Outcome State Fault Refusal :=
  .next { s.packBit with i := nextIndex s.i, phase := packSuccessor s.i }

end Sys2Proof.Machine
end

