-- ==== Sys2Proof/Machine/Sequence.lean ====
section
/-! DEFINITION. The sequencing micro-operations IDLE, INIT, OK, DONE (spec/40_sequence_control.md section 3). -/

namespace Sys2Proof.Machine

/-- IDLE (R82): on `start` go to INIT, else stay; nothing else is written. -/
def execIdle (s : State) : Host.Outcome State Fault Refusal :=
  .next { s with phase := if s.start then .init else .idle }

/-- INIT (R84): a fresh Reading; `HUM` and `TEMP` are not written. -/
def execInit (s : State) : Host.Outcome State Fault Refusal :=
  .next { s.clearWork with status := .checksumError, phase := .diff }

/-- OK (R90): commit the verdict. -/
def execOk (s : State) : Host.Outcome State Fault Refusal :=
  .next { s with status := .ok, phase := .done }

/-- DONE (R93): back to IDLE; nothing else is written, and `start` is not read (R145). -/
def execDone (s : State) : Host.Outcome State Fault Refusal :=
  .next { s with phase := .idle }

end Sys2Proof.Machine
end

