-- ==== Sys2Proof/Machine/Dispatch.lean ====
section
/-! DEFINITION. One arm per micro-operation (spec/30_encoding.md R66). -/

namespace Sys2Proof.Machine

def exec (i : Instr) (s : State) : Host.Outcome State Fault Refusal :=
  match i with
  | .idle => Sys2Proof.Machine.execIdle s
  | .init => Sys2Proof.Machine.execInit s
  | .diff => Sys2Proof.Machine.execDiff s
  | .cmp => Sys2Proof.Machine.execCmp s
  | .pack => Sys2Proof.Machine.execPack s
  | .sum => Sys2Proof.Machine.execSum s
  | .chk => Sys2Proof.Machine.execChk s
  | .hum => Sys2Proof.Machine.execHum s
  | .tmp => Sys2Proof.Machine.execTmp s
  | .ok => Sys2Proof.Machine.execOk s
  | .done => Sys2Proof.Machine.execDone s

end Sys2Proof.Machine
end

