-- ==== Sys2Proof/Machine/Step.lean ====
section
/-! DEFINITION. The step function (spec/40_sequence_control.md R80), and how a word is put where it fetches. -/

namespace Sys2Proof.Machine

/-- `Step(s, in)` (R80), the inputs of the step being the head of `inputs`. The host's writes land first (log entry 2).
`rst` overrides everything (R170). A host write that races with a decode is refused (U5, log entry 3). Otherwise the
micro-operation whose code is in `PHASE` executes. Each step uses up its inputs (R83). -/
def step (s : State) : Host.Outcome State Fault Refusal :=
  if s.rst then .next s.landWrites.resetRegs.advance
  else if s.racing then .refused .captureWriteDuringDecode
  else
    match s.fetch with
    | .ok i => advanceOutcome (exec i s.landWrites)
    | .error _ => .refused .reservedPhase

/-- The inputs of the coming step without `rst` and without host writes, so that it executes a micro-operation. -/
def State.quietHead (s : State) : List StepInput :=
  match s.inputs with
  | [] => []
  | x :: rest => { x with rst := false, writes := [] } :: rest

/-- The state whose next step runs the micro-operation in a table word: its code in `PHASE`, and no reset and no host
write at that step. A word that selects none cannot be held by `PHASE` (R70) and changes nothing. Log entry 12. -/
def State.withFetchWord (s : State) (nbits w : Nat) : State :=
  match decodeTableWord nbits w with
  | some i => { s with phase := i, inputs := s.quietHead }
  | none => s

end Sys2Proof.Machine
end

