-- ==== Sys2Proof/Machine/Ports.lean ====
section
/-! DEFINITION. The output ports (spec/40_sequence_control.md R85), all computed from the registers, the read-only
diagnostic view among them (spec/10_state.md R35), and which micro-operation reads and writes which register (R11). -/

namespace Sys2Proof.Machine

/-- The output ports of R85. -/
structure Outputs where
  busy : Bool
  done : Bool
  status : BitVec 2
  hum : Tenths
  temp : Tenths
  /-- The entries the coming step reads: two in DIFF, none elsewhere (spec/20_memory.md R42). -/
  cbIndex : List (BitVec 6)
  dbgPhase : PhaseWord
  dbgI : BitVec 6
  dbgW : Timestamp
  dbgBit : Bool
  dbgB : List Byte
  dbgSum : Byte
  dbgMatch : Bool
  deriving DecidableEq, Repr

/-- The buffer entries that the micro-operation named by `PHASE` reads (R42). -/
def State.readIndices (s : State) : List Nat :=
  if s.phase = .diff then [s.openIndex, s.closeIndex] else []

/-- What the block shows in a state; reading it has no effect (R35). -/
def State.outputs (s : State) : Outputs where
  busy := s.busy
  done := s.done
  status := statusCode s.status
  hum := s.hum
  temp := s.temp
  cbIndex := s.readIndices.map (BitVec.ofNat 6)
  dbgPhase := s.phaseWord
  dbgI := BitVec.ofNat 6 s.i.val
  dbgW := s.w
  dbgBit := s.bit
  dbgB := [s.b0, s.b1, s.b2, s.b3, s.b4]
  dbgSum := s.sum
  dbgMatch := s.matched

/-- A register's value as a number (R11). -/
def State.regValue (s : State) : Reg → Nat
  | .phase => s.phaseWord.toNat
  | .i => s.i.val
  | .w => s.w.toNat
  | .bit => s.bit.toNat
  | .b0 => s.b0.toNat
  | .b1 => s.b1.toNat
  | .b2 => s.b2.toNat
  | .b3 => s.b3.toNat
  | .b4 => s.b4.toNat
  | .sum => s.sum.toNat
  | .matched => s.matched.toNat
  | .status => (statusCode s.status).toNat
  | .hum => s.hum.toNat
  | .temp => s.temp.toNat

/-- The registers a micro-operation may write: the column "written by" of R11, read by rows of operations. -/
def writtenBy : Instr → List Reg
  | .idle => [.phase]
  | .init => [.phase, .status, .i, .w, .bit, .b0, .b1, .b2, .b3, .b4, .sum, .matched]
  | .diff => [.phase, .w]
  | .cmp => [.phase, .bit]
  | .pack => [.phase, .i, .b0, .b1, .b2, .b3, .b4]
  | .sum => [.phase, .sum]
  | .chk => [.phase, .matched]
  | .hum => [.phase, .hum]
  | .tmp => [.phase, .temp]
  | .ok => [.phase, .status]
  | .done => [.phase]

/-- The registers whose values a micro-operation's effect depends on: the column "read by" of R11, and for PACK the
bytes it shifts (R110). No operation reads a result register. -/
def readBy : Instr → List Reg
  | .idle | .init | .ok | .done => []
  | .diff => [.i]
  | .cmp => [.w]
  | .pack => [.i, .bit, .b0, .b1, .b2, .b3, .b4]
  | .sum => [.b0, .b1, .b2, .b3]
  | .chk => [.sum, .b4]
  | .hum => [.b0, .b1]
  | .tmp => [.b2, .b3]

end Sys2Proof.Machine
end

