-- ==== Sys2Proof/Machine/Stimulus.lean ====
section
/-! DEFINITION. How a program of this block, a capture buffer, is written down and issued (spec/30_encoding.md R71,
spec/95_test_vectors.md part 3), and the trace notation. -/

namespace Sys2Proof.Machine

/-- Host writes of successive entries from index `k` on; indices past 42 do not exist (spec/20_memory.md R41). -/
def writesFrom : Nat → List Timestamp → List HostWrite
  | _, [] => []
  | k, v :: vs => if h : k < 43 then ⟨⟨k, h⟩, v⟩ :: writesFrom (k + 1) vs else []

/-- The timestamps that follow `base` at the given widths, wrapping as the tick counter does
(spec/70_reset_and_hazards.md R185). -/
def timestampsOf : Timestamp → List Timestamp → List Timestamp
  | base, [] => [base]
  | base, w :: ws => base :: timestampsOf (base + w) ws

/-- The bits of a byte, most significant first (spec/20_memory.md R45). -/
def byteBits (b : Byte) : List Bool := (List.range 8).map fun k => b.getLsbD (7 - k)

/-- The 40 widths that carry five frame bytes, one width for a 0 and one for a 1 (spec/30_encoding.md R61, R71). -/
def frameWidths (wZero wOne : Timestamp) (bytes : List Byte) : List Timestamp :=
  (bytes.flatMap byteBits).map fun bit => if bit then wOne else wZero

/-- The host writes that put a stimulus into the buffer. Widths and frames write entries 2 to 42 only (log entry 17). -/
def Stimulus.writes : Stimulus → List HostWrite
  | .entries cb => writesFrom 0 cb
  | .widths base pw => writesFrom 2 (timestampsOf base pw)
  | .frame base wZero wOne b0 b1 b2 b3 b4 =>
    writesFrom 2 (timestampsOf base (frameWidths wZero wOne [b0, b1, b2, b3, b4]))

/-- The host writes a stimulus and asserts `start` for one step (spec/60_exceptions.md R156). -/
def Stimulus.request (x : Stimulus) : StepInput := { start := true, writes := Stimulus.writes x }

/-- The state with one more request at the end of its inputs. -/
def State.issue (s : State) (x : Stimulus) : State := { s with inputs := s.inputs ++ [Stimulus.request x] }

/-! ### Trace notation (spec/30_encoding.md R71) -/

/-- The mnemonic of R66, in capitals. -/
def mnemonicOf : Instr → String
  | .idle => "IDLE"
  | .init => "INIT"
  | .diff => "DIFF"
  | .cmp => "CMP"
  | .pack => "PACK"
  | .sum => "SUM"
  | .chk => "CHK"
  | .hum => "HUM"
  | .tmp => "TMP"
  | .ok => "OK"
  | .done => "DONE"

/-- The index is written after DIFF, CMP and PACK only (R71). -/
def tracesIndex : Instr → Bool
  | .diff | .cmp | .pack => true
  | .idle | .init | .sum | .chk | .hum | .tmp | .ok | .done => false

/-- A hexadecimal numeral of at least `width` digits, in capitals (log entry 18). -/
def hexText (width n : Nat) : String :=
  let digits := (Nat.toDigits 16 n).map Char.toUpper
  String.ofList (List.replicate (width - digits.length) '0' ++ digits)

/-- One register write as a trace shows it: bytes and results hexadecimal, the others decimal (log entry 18). -/
def registerText (t : State) : Reg → String
  | .phase => "-> " ++ mnemonicOf t.phase
  | .i => "I=" ++ toString t.i.val
  | .w => "W=" ++ toString t.w.toNat
  | .bit => "BIT=" ++ toString t.bit.toNat
  | .b0 => "B0=" ++ hexText 2 t.b0.toNat
  | .b1 => "B1=" ++ hexText 2 t.b1.toNat
  | .b2 => "B2=" ++ hexText 2 t.b2.toNat
  | .b3 => "B3=" ++ hexText 2 t.b3.toNat
  | .b4 => "B4=" ++ hexText 2 t.b4.toNat
  | .sum => "SUM=" ++ hexText 2 t.sum.toNat
  | .matched => "MATCH=" ++ toString t.matched.toNat
  | .status => "STATUS=" ++ (match t.status with | .ok => "0" | .checksumError => "1" | .timeout => "2")
  | .hum => "HUM=" ++ hexText 4 t.hum.toNat
  | .temp => "TEMP=" ++ hexText 4 t.temp.toNat

/-- The registers a trace line shows for an operation, in the order of the spec's own traces, the next phase last. -/
def tracedRegs (i : Instr) (s : State) : List Reg :=
  match i with
  | .idle | .done => [.phase]
  | .init => [.status, .i, .w, .bit, .b0, .b1, .b2, .b3, .b4, .sum, .matched, .phase]
  | .diff => [.w, .phase]
  | .cmp => [.bit, .phase]
  | .pack =>
    let byte : Reg := match s.i.val / 8 with
      | 0 => .b0
      | 1 => .b1
      | 2 => .b2
      | 3 => .b3
      | _ => .b4
    [byte, .i, .phase]
  | .sum => [.sum, .phase]
  | .chk => [.matched, .phase]
  | .hum => [.hum, .phase]
  | .tmp => [.temp, .phase]
  | .ok => [.status, .phase]

/-- One line of a trace: step number, mnemonic, index where it is written, and the register writes from the state before
`s` to the state after `t` (R71). -/
def traceLine (n : Nat) (s t : State) : String :=
  toString n ++ ": " ++ mnemonicOf s.phase
    ++ (if tracesIndex s.phase then " " ++ toString s.i.val else "")
    ++ (if s.start && decide (s.phase = .idle) then " start=1" else "")
    ++ " ; " ++ " ".intercalate ((tracedRegs s.phase s).map (registerText t))

end Sys2Proof.Machine
end

