-- ==== Sys2Proof/Machine/Transaction.lean ====
section
/-! DEFINITION. The effect of a whole decode transaction as one function on numbers, as the spec writes it
(spec/40_sequence_control.md R94), and the pseudo-operations (spec/30_encoding.md R72). Nothing here uses the meanings
of the micro-operations, so that agreement with them says something. -/

namespace Sys2Proof.Machine

/-- `PW[i] = (CB[i+3] - CB[i+2]) mod 2^32` (R94). -/
def pulseWidth (m : Memory) (i : Nat) : Nat :=
  ((Memory.read m (i + 3)).toNat + 2 ^ 32 - (Memory.read m (i + 2)).toNat) % 2 ^ 32

/-- `bit[i] = (PW[i] ≥ 100)` (R94). -/
def pulseBit (m : Memory) (i : Nat) : Bool := decide (100 ≤ pulseWidth m i)

/-- `B[j] = sum over k in 0..7 of bit[8*j + k] * 2^(7-k)` (R94, R111). -/
def frameByte (m : Memory) (j : Nat) : Nat :=
  ((List.range 8).map fun k => (pulseBit m (8 * j + k)).toNat * 2 ^ (7 - k)).sum

/-- `SUM = (B[0] + B[1] + B[2] + B[3]) mod 256` (R94). -/
def frameSum (m : Memory) : Nat :=
  (frameByte m 0 + frameByte m 1 + frameByte m 2 + frameByte m 3) % 256

/-- `SUM = B[4]` (R94). -/
def frameMatches (m : Memory) : Bool := decide (frameSum m = frameByte m 4)

/-- `B[0]*256 + B[1]` (R94). -/
def frameHumidity (m : Memory) : Nat := frameByte m 0 * 256 + frameByte m 1

/-- `M` if `B[2] < 128` and `neg_16(M)` otherwise, for `M = (B[2] mod 128)*256 + B[3]` (R94). -/
def frameTemperature (m : Memory) : Nat :=
  let mag := frameByte m 2 % 128 * 256 + frameByte m 3
  if 128 ≤ frameByte m 2 then (65536 - mag) % 65536 else mag

/-- The registers after a decode transaction on the buffer `m`: `Decode(CB, HUM_old, TEMP_old)` of R94, with
`PHASE = IDLE`, and `W`, `BIT` of the last pulse (R12, R13). -/
def State.afterDecode (s : State) (m : Memory) : State :=
  { s with
    phase := .idle
    i := 40
    w := BitVec.ofNat 32 (pulseWidth m 39)
    bit := pulseBit m 39
    b0 := BitVec.ofNat 8 (frameByte m 0)
    b1 := BitVec.ofNat 8 (frameByte m 1)
    b2 := BitVec.ofNat 8 (frameByte m 2)
    b3 := BitVec.ofNat 8 (frameByte m 3)
    b4 := BitVec.ofNat 8 (frameByte m 4)
    sum := BitVec.ofNat 8 (frameSum m)
    matched := frameMatches m
    status := if frameMatches m then .ok else .checksumError
    hum := if frameMatches m then BitVec.ofNat 16 (frameHumidity m) else s.hum
    temp := if frameMatches m then BitVec.ofNat 16 (frameTemperature m) else s.temp }

/-- `BITSTEP i` (R72): one bit decoded and packed. -/
def bitStepOps : List Instr := [.diff, .cmp, .pack]

/-- `DECODE` (R72): the run of micro-operations from INIT to DONE. -/
def decodeOps (matched : Bool) : List Instr :=
  .init :: ((List.replicate 40 bitStepOps).flatten ++ .sum :: .chk ::
    (if matched then [.hum, .tmp, .ok, .done] else [.done]))

/-- `SKIP` (R72): no micro-operation at all; the skip is the constant in DIFF's index (R100). -/
def skipOps : List Instr := []

/-- A decode transaction from the accepting IDLE step to the DONE step (R92). -/
def transactionOps (matched : Bool) : List Instr := .idle :: (skipOps ++ decodeOps matched)

/-- Micro-operations executed one after the other, stopping at the first fault or refusal. -/
def runOps : List Instr → State → Host.Outcome State Fault Refusal
  | [], s => .next s
  | i :: is, s =>
    match exec i s with
    | .next t => runOps is t
    | .fault r => .fault r
    | .refused r => .refused r

/-- PACK executed once for each bit of a list, `BIT` holding that bit (spec/42_bit_packer.md R111). -/
def packBits : List Bool → State → Host.Outcome State Fault Refusal
  | [], s => .next s
  | b :: bs, s =>
    match exec .pack { s with bit := b } with
    | .next t => packBits bs t
    | .fault r => .fault r
    | .refused r => .refused r

end Sys2Proof.Machine
end

