-- ==== Sys2Proof/Safety.lean ====
section
/-! DEFINITION. The terms claims use: runs of steps, the host's duties as premises (spec/70_reset_and_hazards.md section
3, spec/60_exceptions.md R156), and the invariant of the reachable states (spec/10_state.md R22, R34). -/

namespace Sys2Proof.Machine

/-! ### Runs -/

/-- `n` steps, stopping at the first fault or refusal. -/
def steps : Nat → State → Host.Outcome State Fault Refusal
  | 0, s => .next s
  | n + 1, s =>
    match step s with
    | .next t => steps n t
    | .fault r => .fault r
    | .refused r => .refused r

/-- The micro-operations that `n` steps from `s` execute, in order. -/
def visited : Nat → State → List Instr
  | 0, _ => []
  | n + 1, s =>
    match step s with
    | .next t => s.phase :: visited n t
    | .fault _ => []
    | .refused _ => []

/-- The buffer after the host writes of the next `n` inputs. -/
def landed (n : Nat) (s : State) : Memory :=
  (s.inputs.take n).foldl (fun m x => Memory.writeAll m x.writes) s.cb

/-! ### Host duties -/

/-- An input that leaves a running decode alone: no reset, and no write to `CB[2..42]` (R181). `start` may be
anything (R83). -/
abbrev StepInput.Undisturbing (x : StepInput) : Prop := x.rst = false ∧ ∀ w ∈ x.writes, w.index.val < 2

/-- The next `n` steps are undisturbed: no reset, and a stable buffer (R48, R181). -/
abbrev Undisturbed (n : Nat) (s : State) : Prop := ∀ x ∈ s.inputs.take n, StepInput.Undisturbing x

/-- The host writes every one of `CB[2..42]` (R48, R180). -/
abbrev Populates (ws : List HostWrite) : Prop := ∀ k : Fin 43, 2 ≤ k.val → ∃ w ∈ ws, w.index = k

/-- The post-skip timestamps are non-decreasing (R49, R185). -/
abbrev MonotonicBuffer (m : Memory) : Prop :=
  ∀ k : Fin 42, 2 ≤ k.val → (Memory.read m k.val).toNat ≤ (Memory.read m (k.val + 1)).toNat

/-! ### What a frame says, as numbers -/

/-- The 8-bit sum of the four payload bytes (spec/43_checksum_validator.md R120). -/
abbrev payloadSum (s : State) : Nat := (s.b0.toNat + s.b1.toNat + s.b2.toNat + s.b3.toNat) % 256

/-- Humidity in tenths of a percent (spec/44_value_extractor.md R130). -/
abbrev humidityTenths (b0 b1 : Byte) : Nat := b0.toNat * 256 + b1.toNat

/-- Temperature in tenths of a degree: the sign-magnitude field of bytes 2 and 3 (R132). -/
abbrev temperatureTenths (b2 b3 : Byte) : Int :=
  if 128 ≤ b2.toNat then -(((b2.toNat % 128) * 256 + b3.toNat : Nat) : Int)
  else (((b2.toNat % 128) * 256 + b3.toNat : Nat) : Int)

/-! ### The reachable states -/

/-- The (`PHASE`, `I`) pairs of R22. -/
abbrev PhaseIndexLegal (s : State) : Prop :=
  (s.phase = .idle ∨ s.phase = .init → s.i.val = 0 ∨ s.i.val = 40) ∧
  (s.phase = .diff ∨ s.phase = .cmp ∨ s.phase = .pack → s.i.val ≤ 39) ∧
  (s.phase = .sum ∨ s.phase = .chk ∨ s.phase = .hum ∨ s.phase = .tmp ∨ s.phase = .ok ∨ s.phase = .done →
    s.i.val = 40)

/-- R34 (a): the block's `STATUS` is Ok or ChecksumError. -/
abbrev StatusNeverTimeout (s : State) : Prop := s.status = .ok ∨ s.status = .checksumError

/-- The checksum verdict is that of the frame held. -/
abbrev VerdictHolds (s : State) : Prop := s.matched = true ∧ s.sum = s.b4 ∧ s.sum.toNat = payloadSum s

/-- R34 (c): with `STATUS = Ok`, no decode is past INIT, and the three result registers describe the frame held. -/
abbrev OkDescribesFrame (s : State) : Prop :=
  s.status = .ok →
    (s.phase = .done ∨ s.phase = .idle ∨ s.phase = .init) ∧ VerdictHolds s ∧
      s.hum.toNat = humidityTenths s.b0 s.b1 ∧ s.temp.toInt = temperatureTenths s.b2 s.b3

/-- What each phase of the pipeline has established; the strengthening of R34 (c) that a step keeps. -/
abbrev PipelineProgress (s : State) : Prop :=
  (s.phase = .chk → s.sum.toNat = payloadSum s) ∧
  (s.phase = .hum ∨ s.phase = .tmp ∨ s.phase = .ok → VerdictHolds s) ∧
  (s.phase = .tmp ∨ s.phase = .ok → s.hum.toNat = humidityTenths s.b0 s.b1) ∧
  (s.phase = .ok → s.temp.toInt = temperatureTenths s.b2 s.b3)

/-- Outside a running decode `MATCH` is 1 exactly when the latest decode ended with Ok (spec/10_state.md R16). -/
abbrev MatchTellsStatus (s : State) : Prop :=
  s.phase = .done ∨ s.phase = .idle ∨ s.phase = .init → (s.matched = true ↔ s.status = .ok)

/-- The invariant of the reachable states (R22, R34, R16), and the buffer's canonical form. -/
abbrev BlockInvariant (s : State) : Prop :=
  PhaseIndexLegal s ∧ StatusNeverTimeout s ∧ OkDescribesFrame s ∧ PipelineProgress s ∧ MatchTellsStatus s ∧
    Memory.wf s.cb = true

end Sys2Proof.Machine
end

