-- ==== Sys2Proof/Certificates/Slice0/Obligations.lean ====
section
/-! DEFINITION. The statements for the provers. Each docstring names the rule of spec/ it formalises; where a rule rests
on a decision of the spec's own (marked so in spec/92_eei_decisions.md) or a clause on a choice of the model's, it says
which. -/

open Sys2Proof Sys2Proof.Machine

/-! ### Encoding -/

/-- The table of spec/30_encoding.md section 5, word by word (the codes are the spec's decision D4). -/
def Obligations.PhaseWordsSelectTabledOperations : Prop :=
  decodePhase 0b0000#4 = .ok .idle ∧ decodePhase 0b0001#4 = .ok .init ∧ decodePhase 0b0010#4 = .ok .diff ∧
  decodePhase 0b0011#4 = .ok .cmp ∧ decodePhase 0b0100#4 = .ok .pack ∧ decodePhase 0b0101#4 = .ok .sum ∧
  decodePhase 0b0110#4 = .ok .chk ∧ decodePhase 0b0111#4 = .ok .hum ∧ decodePhase 0b1000#4 = .ok .tmp ∧
  decodePhase 0b1001#4 = .ok .ok ∧ decodePhase 0b1010#4 = .ok .done

/-- A PHASE word, and a byte, decodes to an operation exactly when it is that operation's code, and codes 11 to 15
select none (spec/30_encoding.md section 6, decision D20; the byte form is log entry 13). -/
def Obligations.WordsDecodeExactlyAsEncoded : Prop :=
  (∀ (w : PhaseWord) (i : Instr), decodePhase w = .ok i ↔ w = encode i) ∧
  (∀ (b : Byte) (i : Instr), decodeByte b = .ok i ↔ b = encodeByte i) ∧
  (∀ w : PhaseWord, 11 ≤ w.toNat → decodePhase w = .error (.reservedPhaseCode w))

/-- Every legal frame can be carried and comes back (spec/30_encoding.md sections 1 and 2, R61, R62, R68): any five
bytes, any width below 100 for a 0 bit and any width of 100 or more for a 1 bit, any first timestamp, requested of an
idle block with no other input pending, are the frame the block holds when it is idle again, and `STATUS` is Ok exactly
when byte 4 is the 8-bit sum. The wrap of the timestamps in the stimulus is the spec's decision D7. -/
def Obligations.FrameStimulusDecodesToItsBytes : Prop :=
  ∀ (s : State) (base wZero wOne : Timestamp) (b0 b1 b2 b3 b4 : Byte),
    s.phase = .idle → s.inputs = [] → Memory.wf s.cb = true → wZero.toNat < 100 → 100 ≤ wOne.toNat →
    ∃ (n : Nat) (t : State), n ≤ 128 ∧ steps n (s.issue (.frame base wZero wOne b0 b1 b2 b3 b4)) = .next t ∧
      t.phase = .idle ∧ t.b0 = b0 ∧ t.b1 = b1 ∧ t.b2 = b2 ∧ t.b3 = b3 ∧ t.b4 = b4 ∧
      (t.status = .ok ↔ b4.toNat = (b0.toNat + b1.toNat + b2.toNat + b3.toNat) % 256)

/-! ### The step and reset -/

/-- A step with neither reset nor racing host write runs the operation that the PHASE word decodes to, on the state in
which the host's writes have landed, and uses up its inputs (spec/40_sequence_control.md section 2; that inputs are a
list in State is log entry 1, that writes land first log entry 2). The PHASE word of every state decodes. -/
def Obligations.StepRunsDecodedOperation : Prop :=
  (∀ s : State, ∃ i : Instr, i.wellFormed = true ∧ decodePhase s.phaseWord = .ok i) ∧
  ∀ (s : State) (i : Instr), s.rst = false → s.racing = false → decodePhase s.phaseWord = .ok i →
    step s =
      match exec i { s with cb := Memory.writeAll s.cb s.input.writes } with
      | .next t => .next { t with inputs := t.inputs.tail }
      | .fault r => .fault r
      | .refused r => .refused r

/-- The state right after reset holds every value spec/10_state.md section 8 states (decision D12); `HUM` and `TEMP`
are unspecified there and nothing is said of them. -/
def Obligations.ResetStateAsSpecified : Prop :=
  State.reset.phase = .idle ∧ State.reset.i.val = 0 ∧ State.reset.w = 0 ∧ State.reset.bit = false ∧
  State.reset.b0 = 0 ∧ State.reset.b1 = 0 ∧ State.reset.b2 = 0 ∧ State.reset.b3 = 0 ∧ State.reset.b4 = 0 ∧
  State.reset.sum = 0 ∧ State.reset.matched = false ∧ State.reset.status = .checksumError ∧
  State.reset.busy = false ∧ State.reset.done = false

/-- With `rst = 1` the next state is the reset state, whatever `PHASE`, `start` and the registers are; `HUM` and `TEMP`
become some value the statement does not fix (spec/70_reset_and_hazards.md section 1, decisions D12, D16). The buffer is
the host's and the step's inputs are used up (log entry 1). -/
def Obligations.ResetOverridesEverything : Prop :=
  ∀ s : State, s.rst = true → ∃ (h v : Tenths) (n : Nat),
    step s = .next {
      phase := .idle, i := 0, w := 0, bit := false, b0 := 0, b1 := 0, b2 := 0, b3 := 0, b4 := 0, sum := 0,
      matched := false, status := .checksumError, hum := h, temp := v,
      cb := Memory.writeAll s.cb s.input.writes, inputs := s.inputs.tail, resets := n }

/-- `start` has no effect at a step whose PHASE is not IDLE, nor at a step with `rst = 1`, and is not remembered
(spec/40_sequence_control.md R83, spec/60_exceptions.md R145, decision D16). -/
def Obligations.StartIgnoredOutsideIdle : Prop :=
  ∀ (s : State) (x : StepInput) (rest : List StepInput) (b : Bool), s.inputs = x :: rest →
    s.phase ≠ .idle ∨ x.rst = true → step { s with inputs := { x with start := b } :: rest } = step s

/-- A host write to one of `CB[2..42]` after `start` is accepted and before `done` has no meaning in the model
(spec/93_implementation_defined.md U5 "refuse"; where the window ends is log entry 3). -/
def Obligations.ConcurrentCaptureWriteRefused : Prop :=
  ∀ (s : State) (w : HostWrite), s.rst = false → s.phase ≠ .idle → s.phase ≠ .done → w ∈ s.input.writes →
    2 ≤ w.index.val → step s = .refused .captureWriteDuringDecode

/-- After a completed step of an idle block each entry holds the last value the host wrote to it at that step, or what
it held (spec/60_exceptions.md section 6, "fill the buffer"; the landing order is log entry 2). -/
def Obligations.HostWritesLandInIdle : Prop :=
  ∀ s : State, Memory.wf s.cb = true → s.phase = .idle → ∃ t : State, step s = .next t ∧ Memory.wf t.cb = true ∧
    ∀ k : Nat, k < 43 → t.readEntry k =
      some (s.input.writes.foldl (fun acc w => if w.index.val = k then w.value else acc) (Memory.read s.cb k))

/-! ### The micro-operations: result, frame and completion in one equation -/

/-- IDLE (spec/40_sequence_control.md R82, decision D3): goes to INIT exactly on `start`, and changes nothing else. -/
def Obligations.IdleAcceptsStartOnly : Prop :=
  ∀ s : State,
    (s.input.start = true → exec .idle s = .next { s with phase := .init }) ∧
    (s.input.start = false → exec .idle s = .next { s with phase := .idle })

/-- INIT (R84, decision D13): a fresh status and fresh working registers; `HUM`, `TEMP` and the buffer stay. -/
def Obligations.InitBeginsFreshReading : Prop :=
  ∀ s : State, exec .init s = .next { s with
    status := .checksumError, i := 0, w := 0, bit := false, b0 := 0, b1 := 0, b2 := 0, b3 := 0, b4 := 0, sum := 0,
    matched := false, phase := .diff }

/-- DIFF (spec/41_comparator_bit_decoder.md R101) for every `I` in 0..39: `W` is the difference of `CB[I+3]` and
`CB[I+2]`, exact when the entries are in order and wrapped modulo 2^32 (decision D7) when they are not; nothing else but
PHASE changes. -/
def Obligations.DiffFormsPulseWidth : Prop :=
  ∀ (s : State) (a b : Timestamp), s.readEntry (s.i.val + 2) = some a → s.readEntry (s.i.val + 3) = some b →
    ∃ v : Timestamp, exec .diff s = .next { s with w := v, phase := .cmp } ∧
      (a.toNat ≤ b.toNat → v.toNat = b.toNat - a.toNat) ∧
      (b.toNat < a.toNat → v.toNat = b.toNat + 2 ^ 32 - a.toNat ∧ 1 ≤ v.toNat)

/-- On a monotonic buffer every DIFF of a decode forms the elapsed ticks, which is all the source defines
(spec/20_memory.md R49, spec/41_comparator_bit_decoder.md section 4). -/
def Obligations.MonotonicBufferGivesElapsedTicks : Prop :=
  ∀ s : State, MonotonicBuffer s.cb → s.i.val ≤ 39 → ∃ v : Timestamp,
    exec .diff s = .next { s with w := v, phase := .cmp } ∧
      (Memory.read s.cb (s.i.val + 2)).toNat + v.toNat = (Memory.read s.cb (s.i.val + 3)).toNat

/-- CMP (R102): inclusive, unsigned; only `BIT` and PHASE change. -/
def Obligations.CmpDecidesBitAtHundred : Prop :=
  encode .cmp = 0b0011#4 ∧
  ∀ s : State,
    (100 ≤ s.w.toNat → exec .cmp s = .next { s with bit := true, phase := .pack }) ∧
    (s.w.toNat ≤ 99 → exec .cmp s = .next { s with bit := false, phase := .pack })

/-- PACK (spec/42_bit_packer.md R110) for every `I` in 0..39: the byte `I div 8` becomes `(2 * B + BIT) mod 256`, the
four other bytes stay, `I` counts, and the loop ends after bit 39. A step comes to PACK only from CMP and to CMP only from
DIFF, with the same `I`; from a (`PHASE`, `I`) pair of spec/10_state.md R22 that `I` is at most 39, so PACK never executes
with `I = 40`. -/
def Obligations.PackShiftsBitIntoItsByte : Prop :=
  encode .pack = 0b0100#4 ∧
  (∀ (s : State) (k : Fin 41), k.val = s.i.val + 1 →
    exec .pack s = .next { s with
      b0 := if s.i.val / 8 = 0 then BitVec.ofNat 8 ((2 * s.b0.toNat + s.bit.toNat) % 256) else s.b0
      b1 := if s.i.val / 8 = 1 then BitVec.ofNat 8 ((2 * s.b1.toNat + s.bit.toNat) % 256) else s.b1
      b2 := if s.i.val / 8 = 2 then BitVec.ofNat 8 ((2 * s.b2.toNat + s.bit.toNat) % 256) else s.b2
      b3 := if s.i.val / 8 = 3 then BitVec.ofNat 8 ((2 * s.b3.toNat + s.bit.toNat) % 256) else s.b3
      b4 := if s.i.val / 8 = 4 then BitVec.ofNat 8 ((2 * s.b4.toNat + s.bit.toNat) % 256) else s.b4
      i := k
      phase := if s.i.val = 39 then .sum else .diff }) ∧
  (∀ s t : State, step s = .next t →
    (t.phase = .pack → s.phase = .cmp ∧ t.i = s.i) ∧ (t.phase = .cmp → s.phase = .diff ∧ t.i = s.i)) ∧
  ∀ s t : State, PhaseIndexLegal s → step s = .next t → t.phase = .pack ∨ t.phase = .cmp → t.i.val ≤ 39

/-- DIFF and PACK with `I = 40`, which no reachable state has (spec/10_state.md R22), still give a next state, as
spec/60_exceptions.md R140 asks: DIFF takes some value for the `CB[43]` that does not exist and goes to CMP; PACK has no
`B[5]` to write, leaves the five bytes, takes some value for the `I + 1` that `I` cannot hold and goes to DIFF. The values
are free and the effects around them are the model's choice, log entry 8. -/
def Obligations.BitPhasesStepOnPastLastBit : Prop :=
  ∀ s : State, s.i.val = 40 →
    (∃ v : Timestamp, exec .diff s = .next { s with w := v, phase := .cmp }) ∧
    ∃ k : Fin 41, exec .pack s = .next { s with i := k, phase := .diff }

/-- SUM (spec/43_checksum_validator.md R120): all four payload bytes, whole and unsigned, modulo 256; only `SUM` and
PHASE change. -/
def Obligations.SumAddsPayloadModulo256 : Prop :=
  encode .sum = 0b0101#4 ∧
  ∀ s : State, ∃ v : Byte, exec .sum s = .next { s with sum := v, phase := .chk } ∧
    v.toNat = (s.b0.toNat + s.b1.toNat + s.b2.toNat + s.b3.toNat) % 256

/-- CHK (R121, its pseudocode): the verdict and the branch; `STATUS`, `HUM`, `TEMP` are not written. -/
def Obligations.ChkComparesAndBranches : Prop :=
  encode .chk = 0b0110#4 ∧
  ∀ s : State,
    (s.sum = s.b4 → exec .chk s = .next { s with matched := true, phase := .hum }) ∧
    (s.sum ≠ s.b4 → exec .chk s = .next { s with matched := false, phase := .done })

/-- HUM (spec/44_value_extractor.md R130): the high byte first, unsigned, no clamp; only `HUM` and PHASE change. A step
comes to HUM only from a CHK that found a match. -/
def Obligations.HumAssemblesHighByteFirst : Prop :=
  encode .hum = 0b0111#4 ∧
  (∀ s : State, ∃ v : Tenths, exec .hum s = .next { s with hum := v, phase := .tmp } ∧
    v.toNat = s.b0.toNat * 256 + s.b1.toNat) ∧
  ∀ s t : State, step s = .next t → t.phase = .hum → s.phase = .chk ∧ s.sum = s.b4

/-- TMP (R132): sign-magnitude in bytes 2 and 3 to two's complement; never 0x8000; only `TEMP` and PHASE change. A step
comes to TMP only from HUM, and to HUM only from a CHK that found a match. -/
def Obligations.TmpConvertsSignMagnitude : Prop :=
  encode .tmp = 0b1000#4 ∧
  (∀ s : State, ∃ v : Tenths, exec .tmp s = .next { s with temp := v, phase := .ok } ∧ v ≠ 0x8000#16 ∧
    (s.b2.toNat < 128 → v.toInt = ((s.b2.toNat * 256 + s.b3.toNat : Nat) : Int)) ∧
    (128 ≤ s.b2.toNat → v.toInt = -(((s.b2.toNat - 128) * 256 + s.b3.toNat : Nat) : Int))) ∧
  (∀ s t : State, step s = .next t → t.phase = .tmp → s.phase = .hum) ∧
  ∀ s t : State, step s = .next t → t.phase = .hum → s.phase = .chk ∧ s.sum = s.b4

/-- Negative zero (R134, decision D15): sign flag set and magnitude 0 give 0, as with the sign flag clear; the flag
stays readable in `B2`. -/
def Obligations.NegativeZeroReadsZero : Prop :=
  ∀ s : State, s.b2 = 0x80#8 ∨ s.b2 = 0x00#8 → s.b3 = 0x00#8 →
    exec .tmp s = .next { s with temp := 0x0000#16, phase := .ok }

/-- OK and DONE (spec/40_sequence_control.md R90, R93, decisions D11, D3): the verdict is committed, then the block goes
idle; nothing else changes, `start` or not. -/
def Obligations.OkAndDoneCompleteADecode : Prop :=
  (∀ s : State, exec .ok s = .next { s with status := .ok, phase := .done }) ∧
  ∀ s : State, exec .done s = .next { s with phase := .idle }

/-- The physical quantities (spec/44_value_extractor.md R131, R133): exact rationals with one decimal digit, in their
ranges, of the right sign and of the right magnitude. -/
def Obligations.ReadingDenotesExactTenths : Prop :=
  (∀ s : State, ∃ t : State, exec .hum s = .next t ∧ t.humidityPercent = (t.hum.toNat : Rat) / 10 ∧
    t.humidityPercent = ((s.b0.toNat * 256 + s.b1.toNat : Nat) : Rat) / 10 ∧
    0 ≤ t.humidityPercent ∧ t.humidityPercent ≤ 65535 / 10) ∧
  ∀ s : State, ∃ t : State, exec .tmp s = .next t ∧ t.temperatureCelsius = (t.temp.toInt : Rat) / 10 ∧
    -(32767 / 10) ≤ t.temperatureCelsius ∧ t.temperatureCelsius ≤ 32767 / 10 ∧
    (s.b2.getLsbD 7 = false → 0 ≤ t.temperatureCelsius ∧
      t.temperatureCelsius = ((s.b2.toNat * 256 + s.b3.toNat : Nat) : Rat) / 10) ∧
    (s.b2.getLsbD 7 = true → (s.b2 ≠ 0x80#8 ∨ s.b3 ≠ 0x00#8) → t.temperatureCelsius < 0 ∧
      t.temperatureCelsius = -((((s.b2.toNat - 128) * 256 + s.b3.toNat : Nat) : Rat) / 10))

/-- The outputs (spec/10_state.md R27, R35, spec/40_sequence_control.md R85, decisions D1, D3, D14): `busy` and `done`
follow PHASE, each result port and each diagnostic port shows its register, and the buffer is indexed at `I + 2` and
`I + 3` in DIFF and not at all elsewhere; from a (`PHASE`, `I`) pair of R22 the index lies in 2..42 (spec/20_memory.md
R46). -/
def Obligations.OutputsFollowRegisters : Prop :=
  ∀ s : State,
    (s.outputs.busy = true ↔ s.phase ≠ .idle) ∧ (s.outputs.done = true ↔ s.phase = .done) ∧
    (s.outputs.status = 0#2 ↔ s.status = .ok) ∧ (s.outputs.status = 1#2 ↔ s.status = .checksumError) ∧
    (s.outputs.status = 2#2 ↔ s.status = .timeout) ∧ s.outputs.hum = s.hum ∧ s.outputs.temp = s.temp ∧
    decodePhase s.outputs.dbgPhase = .ok s.phase ∧ s.outputs.dbgI.toNat = s.i.val ∧ s.outputs.dbgW = s.w ∧
    s.outputs.dbgBit = s.bit ∧ s.outputs.dbgB = [s.b0, s.b1, s.b2, s.b3, s.b4] ∧ s.outputs.dbgSum = s.sum ∧
    s.outputs.dbgMatch = s.matched ∧
    (s.outputs.cbIndex.map fun k => k.toNat) = (if s.phase = .diff then [s.i.val + 2, s.i.val + 3] else []) ∧
    (PhaseIndexLegal s → ∀ k ∈ s.outputs.cbIndex, 2 ≤ k.toNat ∧ k.toNat ≤ 42)

/-! ### Frames: who writes and who reads -/

/-- The column "written by" of the register inventory (spec/10_state.md section 1): a completed operation leaves every
register it does not name as it was. -/
def Obligations.OperationsWriteOnlyTheirRegisters : Prop :=
  ∀ (i : Instr) (s t : State) (r : Reg), exec i s = .next t → r ∉ writtenBy i → t.regValue r = s.regValue r

/-- The column "read by" of the inventory, and the access table after it: what a completed operation writes depends on
the registers it reads, the buffer and the inputs, and on nothing else; no operation reads `STATUS`, `HUM` or `TEMP`. -/
def Obligations.OperationsReadOnlyTheirRegisters : Prop :=
  (∀ i : Instr, .status ∉ readBy i ∧ .hum ∉ readBy i ∧ .temp ∉ readBy i) ∧
  ∀ (i : Instr) (s s' t : State), (∀ r : Reg, r ∈ readBy i → s.regValue r = s'.regValue r) → s.cb = s'.cb →
    s.inputs = s'.inputs → exec i s = .next t →
    ∃ t' : State, exec i s' = .next t' ∧ ∀ r : Reg, r ∈ writtenBy i → t.regValue r = t'.regValue r

/-- The block never writes the capture buffer (spec/20_memory.md R43): no operation changes an entry, and a step with no
host write changes no entry. -/
def Obligations.NoOperationStoresToBuffer : Prop :=
  (∀ (i : Instr) (s t : State), exec i s = .next t → ∀ k : Nat, t.readEntry k = s.readEntry k) ∧
  ∀ s t : State, step s = .next t → s.input.writes = [] → ∀ k : Nat, t.readEntry k = s.readEntry k

/-- The frame of the model's own fields: no operation changes the inputs to come (log entry 1) or the reset counter (log
entry 5), and a step takes exactly one input and counts exactly the resets. -/
def Obligations.StepsUseOneInputAndCountResets : Prop :=
  (∀ (i : Instr) (s t : State), exec i s = .next t → t.inputs = s.inputs ∧ t.resets = s.resets) ∧
  ∀ s t : State, step s = .next t → t.inputs = s.inputs.tail ∧ t.resets = s.resets + s.rst.toNat

/-- Only DIFF reads the buffer, and it never reads entries 0 and 1 (spec/20_memory.md R41, R42): other contents that
agree on what an operation may read change nothing it does. -/
def Obligations.OnlyPayloadEntriesMatterAndOnlyToDiff : Prop :=
  ∀ (i : Instr) (s t : State) (m : Memory),
    (i = .diff → ∀ k : Nat, 2 ≤ k → k ≤ 42 → Memory.read m k = Memory.read s.cb k) → exec i s = .next t →
    exec i { s with cb := m } = .next { t with cb := m }

/-- Only OK makes `STATUS` Ok, only HUM and TMP and a reset change the values, and no step produces Timeout
(spec/10_state.md R24 to R26, spec/60_exceptions.md R143, decisions D8, D17). -/
def Obligations.ResultsChangeOnlyByTheirOperations : Prop :=
  ∀ s t : State, step s = .next t →
    (t.status = .ok → s.status = .ok ∨ s.phase = .ok) ∧ (t.status = .timeout → s.status = .timeout) ∧
    (t.hum ≠ s.hum → s.phase = .hum ∨ s.rst = true) ∧ (t.temp ≠ s.temp → s.phase = .tmp ∨ s.rst = true)

/-! ### The checksum -/

/-- A single flipped bit anywhere in a valid frame turns the verdict to mismatch (spec/43_checksum_validator.md section
2, corner cases; derived there from R120). -/
def Obligations.SingleBitErrorIsDetected : Prop :=
  ∀ (s : State) (j : Fin 5) (k : Fin 8), s.b4.toNat = payloadSum s →
    ∃ t : State, runOps [.sum, .chk] (s.setB j (s.getB j ^^^ (1#8 <<< k.val))) = .next t ∧
      t.matched = false ∧ t.phase = .done

/-- For each payload exactly one checksum byte is valid, the payload's sum modulo 256 (spec/30_encoding.md R68). -/
def Obligations.ExactlyOneChecksumIsValid : Prop :=
  ∀ s : State, ∃ c : Byte, c.toNat = payloadSum s ∧ ∀ v : Byte, ∃ t : State,
    runOps [.sum, .chk] { s with b4 := v } = .next t ∧ (t.matched = true ↔ v.toNat = payloadSum s) ∧
      (t.matched = true ↔ v = c)

/-! ### Packing -/

/-- Eight PACKs fill one byte most significant bit first, whatever it held (spec/42_bit_packer.md section 2, R111,
R112), and leave the four others. -/
def Obligations.EightPacksFillByteMsbFirst : Prop :=
  ∀ (s : State) (j : Fin 5) (bits : List Bool), s.i.val = 8 * j.val → bits.length = 8 →
    ∃ t : State, packBits bits s = .next t ∧ t.i.val = 8 * j.val + 8 ∧
      (t.getB j).toNat = ((List.range 8).map fun k => (bits.getD k false).toNat * 2 ^ (7 - k)).sum ∧
      ∀ j' : Fin 5, j' ≠ j → t.getB j' = s.getB j'

/-! ### The whole machine -/

/-- The reset state is one of the states the invariant describes. -/
def Obligations.ResetSatisfiesInvariant : Prop := BlockInvariant State.reset

/-- The invariant of spec/10_state.md section 9 (with the PHASE and I pairs of section 4, the MATCH clause of section 3
and the buffer's canonical form, log entry 6): every step from a state that meets it gives a state that meets it. In
particular `STATUS = Ok` is never seen with values of another frame. -/
def Obligations.StepKeepsInvariant : Prop := ∀ s t : State, BlockInvariant s → step s = .next t → BlockInvariant t

/-- The block raises no exception, has no fault outcome and is never stuck (spec/60_exceptions.md R140,
spec/40_sequence_control.md R80): every operation gives a next state in every state, and so does every step, except that
the model refuses exactly the steps with a racing host write (log entry 3). -/
def Obligations.EveryStateHasNextState : Prop :=
  (∀ (i : Instr) (s : State), ∃ t : State, exec i s = .next t) ∧
  ∀ s : State,
    (s.rst = true ∨ s.racing = false → ∃ t : State, step s = .next t) ∧
    (s.rst = false ∧ s.racing = true → step s = .refused .captureWriteDuringDecode) ∧
    (s.racing = true ↔ s.phase ≠ .idle ∧ s.phase ≠ .done ∧ ∃ w ∈ s.input.writes, 2 ≤ w.index.val)

/-- The complete successor table (spec/40_sequence_control.md section 4). -/
def Obligations.PhaseFollowsSuccessorTable : Prop :=
  ∀ s t : State, step s = .next t →
    (s.rst = true → t.phase = .idle) ∧
    (s.rst = false →
      (s.phase = .idle → s.start = false → t.phase = .idle) ∧ (s.phase = .idle → s.start = true → t.phase = .init) ∧
      (s.phase = .init → t.phase = .diff) ∧ (s.phase = .diff → t.phase = .cmp) ∧ (s.phase = .cmp → t.phase = .pack) ∧
      (s.phase = .pack → s.i.val ≤ 38 → t.phase = .diff) ∧ (s.phase = .pack → s.i.val = 39 → t.phase = .sum) ∧
      (s.phase = .sum → t.phase = .chk) ∧ (s.phase = .chk → s.sum = s.b4 → t.phase = .hum) ∧
      (s.phase = .chk → s.sum ≠ s.b4 → t.phase = .done) ∧ (s.phase = .hum → t.phase = .tmp) ∧
      (s.phase = .tmp → t.phase = .ok) ∧ (s.phase = .ok → t.phase = .done) ∧ (s.phase = .done → t.phase = .idle))

/-- `done` is a pulse one state long, and the step that ends it leaves the result alone unless it is a reset
(spec/40_sequence_control.md R93, decision D3). -/
def Obligations.DoneLastsOneState : Prop :=
  ∀ s : State, s.done = true → ∃ t : State, step s = .next t ∧ t.done = false ∧ t.busy = false ∧
    (s.rst = false → t.status = s.status ∧ t.hum = s.hum ∧ t.temp = s.temp)

/-- An idle block without `start` and `rst` keeps every register for as long as it idles, whatever the host writes to
the buffer (spec/40_sequence_control.md R82, R96; spec/60_exceptions.md section 6). -/
def Obligations.IdleKeepsLatestReading : Prop :=
  ∀ (n : Nat) (s : State), s.phase = .idle → (∀ x ∈ s.inputs.take n, x.rst = false ∧ x.start = false) →
    steps n s = .next { s with cb := landed n s, inputs := s.inputs.drop n }

/-- A whole decode transaction, from any idle state with `start`, on a stable buffer, is the function `Decode` of
spec/40_sequence_control.md section 5 (R94), takes 128 steps on a match and 125 on a mismatch (R92), and ends idle with
`I = 40`; the host may write entries 0 and 1 meanwhile, and `start` may come again and is lost. On a mismatch `HUM` and
`TEMP` are untouched. -/
def Obligations.TransactionComputesDecode : Prop :=
  ∀ (s : State) (m : Memory) (n : Nat), s.phase = .idle → s.rst = false → s.start = true →
    m = Memory.writeAll s.cb s.input.writes → n = (if frameMatches m then 128 else 125) →
    (∀ x ∈ s.inputs.tail.take (n - 1), StepInput.Undisturbing x) →
    steps n s = .next { s.afterDecode m with cb := landed n s, inputs := s.inputs.drop n }

/-- The operations a decode transaction executes, in order (spec/40_sequence_control.md section 4, R92;
spec/30_encoding.md R72). -/
def Obligations.TransactionExecutesDecodeSequence : Prop :=
  ∀ (s : State) (m : Memory) (n : Nat), s.phase = .idle → s.rst = false → s.start = true →
    m = Memory.writeAll s.cb s.input.writes → n = (if frameMatches m then 128 else 125) →
    (∀ x ∈ s.inputs.tail.take (n - 1), StepInput.Undisturbing x) →
    visited n s = transactionOps (frameMatches m)

/-- After a transaction `STATUS` is Ok exactly when the frame held is valid, and `HUM`, `TEMP` are its extraction then
and untouched otherwise (spec/43_checksum_validator.md section 3, spec/10_state.md section 7). -/
def Obligations.OkExactlyOnChecksumMatch : Prop :=
  ∀ (s : State) (m : Memory) (n : Nat), s.phase = .idle → s.rst = false → s.start = true →
    m = Memory.writeAll s.cb s.input.writes → n = (if frameMatches m then 128 else 125) →
    (∀ x ∈ s.inputs.tail.take (n - 1), StepInput.Undisturbing x) →
    ∃ t : State, steps n s = .next t ∧
      (t.b4.toNat = payloadSum t → t.status = .ok ∧ t.hum.toNat = humidityTenths t.b0 t.b1 ∧
        t.temp.toInt = temperatureTenths t.b2 t.b3) ∧
      (t.b4.toNat ≠ payloadSum t → t.status = .checksumError ∧ t.hum = s.hum ∧ t.temp = s.temp)

/-- Decoding the same buffer twice, the second `start` coming at the step right after the first transaction, ends in the
same Reading and the same registers (spec/40_sequence_control.md section 5, R95, the source's idempotence). -/
def Obligations.SecondDecodeChangesNothing : Prop :=
  ∀ (s : State) (n : Nat), s.phase = .idle → s.rst = false → s.start = true →
    n = (if frameMatches (Memory.writeAll s.cb s.input.writes) then 128 else 125) →
    (∀ x ∈ s.inputs.tail.take (2 * n - 1), StepInput.Undisturbing x) → ((s.inputs.drop n).headD {}).start = true →
    ∃ t u : State, steps n s = .next t ∧ steps n t = .next u ∧ ∀ r : Reg, u.regValue r = t.regValue r

/-- The result of a decode depends on `CB[2..42]` and, on a mismatch only, on the old `HUM` and `TEMP`
(spec/40_sequence_control.md section 5, R95): two blocks that differ in everything else end with equal registers. -/
def Obligations.DecodeDependsOnlyOnPayloadEntries : Prop :=
  ∀ (s s' : State) (n : Nat), s.phase = .idle → s'.phase = .idle → s.rst = false → s'.rst = false →
    s.start = true → s'.start = true →
    (∀ k : Nat, 2 ≤ k → k ≤ 42 → Memory.read s.landWrites.cb k = Memory.read s'.landWrites.cb k) →
    n = (if frameMatches s.landWrites.cb then 128 else 125) →
    (∀ x ∈ s.inputs.tail.take (n - 1), StepInput.Undisturbing x) →
    (∀ x ∈ s'.inputs.tail.take (n - 1), StepInput.Undisturbing x) →
    (frameMatches s.landWrites.cb = false → s.hum = s'.hum ∧ s.temp = s'.temp) →
    ∃ t t' : State, steps n s = .next t ∧ steps n s' = .next t' ∧ ∀ r : Reg, t.regValue r = t'.regValue r

/-- A request that populates the buffer hides whatever it held before (spec/20_memory.md R48,
spec/70_reset_and_hazards.md R180): nothing of the old contents, nor what an unwritten entry reads as (log entry 4),
reaches a register. -/
def Obligations.PopulatedRequestHidesOldBuffer : Prop :=
  ∀ (s : State) (cb : Memory) (n : Nat), s.phase = .idle → s.rst = false → s.start = true → Memory.wf s.cb = true →
    Memory.wf cb = true → Populates s.input.writes → n = (if frameMatches s.landWrites.cb then 128 else 125) →
    (∀ x ∈ s.inputs.tail.take (n - 1), StepInput.Undisturbing x) →
    ∃ t t' : State, steps n s = .next t ∧ steps n { s with cb := cb } = .next t' ∧
      ∀ r : Reg, t.regValue r = t'.regValue r

/-- Every started decode reaches `done` within 126 steps, from every state of the invariant that is not idle, when it is
left alone (spec/40_sequence_control.md R96, spec/70_reset_and_hazards.md section 4). -/
def Obligations.EveryDecodeReachesDone : Prop :=
  ∀ s : State, BlockInvariant s → s.phase ≠ .idle → Undisturbed 126 s →
    ∃ (n : Nat) (t : State), n ≤ 126 ∧ steps n s = .next t ∧ t.done = true
end

