-- ==== Sys2Proof/Laws/Memory.lean ====
section
/-! SUPPORT. The laws of the capture buffer: reading after writing, and the canonical form that every operation keeps. -/

namespace Sys2Proof.Machine

/-- A lower bound on the indices may be lowered. -/
theorem Memory.wfFrom_mono {lo hi : Nat} (h : lo ≤ hi) : ∀ {m : Memory}, Memory.wfFrom hi m = true →
    Memory.wfFrom lo m = true
  | [], _ => rfl
  | (a, x) :: m, hm => by
    simp only [Memory.wfFrom, Bool.and_eq_true, decide_eq_true_eq] at hm ⊢
    exact ⟨⟨⟨by omega, hm.1.1.2⟩, hm.1.2⟩, hm.2⟩

/-- Below its lowest index a canonical buffer reads as unlisted. -/
theorem Memory.read_of_lt : ∀ {m : Memory} {lo k : Nat}, Memory.wfFrom lo m = true → k < lo →
    Memory.read m k = Memory.unlisted
  | [], _, _, _, _ => rfl
  | (a, x) :: m, lo, k, hm, hk => by
    simp only [Memory.wfFrom, Bool.and_eq_true, decide_eq_true_eq] at hm
    rw [Memory.read, if_neg (by omega)]
    exact Memory.read_of_lt hm.2 (by omega)

/-- Writing another entry leaves an entry as it was. -/
theorem Memory.read_write_ne {k k' : Nat} (h : k' ≠ k) (v : Timestamp) : ∀ m : Memory,
    Memory.read (Memory.write m k v) k' = Memory.read m k'
  | [] => by
    by_cases hv : v = Memory.unlisted
    · simp [Memory.write, hv]
    · simp [Memory.write, hv, Memory.read, h.symm]
  | (a, x) :: m => by
    rw [Memory.write]
    split
    · split
      · rfl
      · rw [Memory.read, if_neg h.symm]
    · split
      · rename_i hka
        subst hka
        split <;> simp [Memory.read, h.symm]
      · simp only [Memory.read]
        split
        · rfl
        · exact Memory.read_write_ne h v m

/-- In canonical form, the entry written reads back. -/
theorem Memory.read_write_same (k : Nat) (v : Timestamp) : ∀ {m : Memory} {lo : Nat}, Memory.wfFrom lo m = true →
    Memory.read (Memory.write m k v) k = v
  | [], _, _ => by
    by_cases hv : v = Memory.unlisted
    · simp [Memory.write, hv, Memory.read]
    · simp [Memory.write, hv, Memory.read]
  | (a, x) :: m, lo, hm => by
    have hm' := hm
    simp only [Memory.wfFrom, Bool.and_eq_true, decide_eq_true_eq] at hm'
    rw [Memory.write]
    split
    · split
      · rename_i hka hv
        rw [hv, Memory.read, if_neg (by omega)]
        exact Memory.read_of_lt hm'.2 (by omega)
      · rw [Memory.read, if_pos rfl]
    · split
      · rename_i hka
        split
        · rename_i hv
          rw [hv]
          exact Memory.read_of_lt hm'.2 (by omega)
        · rw [Memory.read, if_pos rfl]
      · rename_i hne
        rw [Memory.read, if_neg (fun h => hne h.symm)]
        exact Memory.read_write_same k v hm'.2

/-- A write of one of the 43 entries keeps the canonical form. -/
theorem Memory.wfFrom_write {k : Nat} (hk : k < 43) (v : Timestamp) : ∀ {m : Memory} {lo : Nat}, lo ≤ k →
    Memory.wfFrom lo m = true → Memory.wfFrom lo (Memory.write m k v) = true
  | [], lo, hlo, _ => by
    by_cases hv : v = Memory.unlisted
    · simp [Memory.write, hv, Memory.wfFrom]
    · simp [Memory.write, hv, Memory.wfFrom, hlo, hk]
  | (a, x) :: m, lo, hlo, hm => by
    have hm' := hm
    simp only [Memory.wfFrom, Bool.and_eq_true, decide_eq_true_eq] at hm'
    rw [Memory.write]
    split
    · split
      · exact hm
      · rename_i hka hv
        simp only [Memory.wfFrom, Bool.and_eq_true, decide_eq_true_eq]
        exact ⟨⟨⟨hlo, hk⟩, hv⟩, ⟨⟨⟨by omega, hm'.1.1.2⟩, hm'.1.2⟩, hm'.2⟩⟩
    · split
      · rename_i hka
        split
        · exact Memory.wfFrom_mono (by omega) hm'.2
        · rename_i hv
          simp only [Memory.wfFrom, Bool.and_eq_true, decide_eq_true_eq]
          exact ⟨⟨⟨hlo, hk⟩, hv⟩, hka ▸ hm'.2⟩
      · simp only [Memory.wfFrom, Bool.and_eq_true, decide_eq_true_eq]
        exact ⟨hm'.1, Memory.wfFrom_write hk v (by omega) hm'.2⟩

/-- A host write keeps the canonical form. -/
theorem Memory.wf_write {m : Memory} (k : Fin 43) (v : Timestamp) (hm : Memory.wf m = true) :
    Memory.wf (Memory.write m k.val v) = true :=
  Memory.wfFrom_write k.isLt v (Nat.zero_le _) hm

/-- A run of host writes keeps the canonical form. -/
theorem Memory.wf_writeAll : ∀ (ws : List HostWrite) {m : Memory}, Memory.wf m = true →
    Memory.wf (Memory.writeAll m ws) = true
  | [], _, hm => hm
  | w :: ws, _, hm => Memory.wf_writeAll ws (Memory.wf_write w.index w.value hm)

/-- The value a run of host writes leaves in entry `k`: the last one written to it, else what it held. -/
theorem Memory.read_writeAll (k : Nat) : ∀ (ws : List HostWrite) {m : Memory}, Memory.wf m = true →
    Memory.read (Memory.writeAll m ws) k =
      ws.foldl (fun acc w => if w.index.val = k then w.value else acc) (Memory.read m k)
  | [], _, _ => rfl
  | w :: ws, m, hm => by
    have step := Memory.read_writeAll k ws (Memory.wf_write w.index w.value hm)
    have head : Memory.read (Memory.write m w.index.val w.value) k =
        if w.index.val = k then w.value else Memory.read m k := by
      split
      · rename_i h
        subst h
        exact Memory.read_write_same _ _ hm
      · rename_i h
        exact Memory.read_write_ne (fun h' => h h'.symm) _ m
    rw [head] at step
    exact step

/-- An entry that no write of a run names is as it was. -/
theorem Memory.read_writeAll_of_ne {k : Nat} : ∀ {ws : List HostWrite}, (∀ w ∈ ws, w.index.val ≠ k) →
    ∀ m : Memory, Memory.read (Memory.writeAll m ws) k = Memory.read m k
  | [], _, _ => rfl
  | w :: ws, h, m => by
    have rest := Memory.read_writeAll_of_ne (fun x hx => h x (List.mem_cons_of_mem _ hx))
      (Memory.write m w.index.val w.value)
    exact rest.trans (Memory.read_write_ne (fun h' => h w List.mem_cons_self h'.symm) _ m)

/-- Equal contents in canonical form are equal lists. -/
theorem Memory.eq_of_read_eq : ∀ {m m' : Memory} {lo : Nat}, Memory.wfFrom lo m = true → Memory.wfFrom lo m' = true →
    (∀ k, Memory.read m k = Memory.read m' k) → m = m'
  | [], [], _, _, _, _ => rfl
  | [], (a, x) :: m', lo, _, h', hr => by
    simp only [Memory.wfFrom, Bool.and_eq_true, decide_eq_true_eq] at h'
    have := hr a
    simp only [Memory.read, if_true] at this
    exact absurd this.symm h'.1.2
  | (a, x) :: m, [], lo, h, _, hr => by
    simp only [Memory.wfFrom, Bool.and_eq_true, decide_eq_true_eq] at h
    have := hr a
    simp only [Memory.read, if_true] at this
    exact absurd this h.1.2
  | (a, x) :: m, (a', x') :: m', lo, h, h', hr => by
    simp only [Memory.wfFrom, Bool.and_eq_true, decide_eq_true_eq] at h h'
    have index : a = a' := by
      rcases Nat.lt_trichotomy a a' with hlt | heq | hlt
      · have := hr a
        rw [Memory.read, if_pos rfl, Memory.read, if_neg (by omega), Memory.read_of_lt h'.2 (by omega)] at this
        exact absurd this h.1.2
      · exact heq
      · have := hr a'
        rw [Memory.read, if_neg (by omega), Memory.read_of_lt h.2 (by omega), Memory.read, if_pos rfl] at this
        exact absurd this.symm h'.1.2
    subst index
    have value : x = x' := by
      have := hr a
      simpa [Memory.read] using this
    subst value
    have tails : m = m' := by
      refine Memory.eq_of_read_eq h.2 h'.2 fun k => ?_
      by_cases hk : a = k
      · rw [← hk, Memory.read_of_lt h.2 (by omega), Memory.read_of_lt h'.2 (by omega)]
      · have := hr k
        rwa [Memory.read, if_neg hk, Memory.read, if_neg hk] at this
    rw [tails]

/-- The buffer right after reset is in canonical form. -/
theorem Memory.wf_reset : Memory.wf State.reset.cb = true := rfl

end Sys2Proof.Machine
end

