-- ==== Sys2Proof/Laws/State.lean ====
section
/-! SUPPORT. One lemma per field per named update of State, each true by `rfl` (for `setB` after a split on the byte). -/

namespace Sys2Proof.Machine

variable (s : State)

/-! ### landWrites -/

@[simp] theorem State.landWrites_phase : (s.landWrites).phase = s.phase := rfl
@[simp] theorem State.landWrites_i : (s.landWrites).i = s.i := rfl
@[simp] theorem State.landWrites_w : (s.landWrites).w = s.w := rfl
@[simp] theorem State.landWrites_bit : (s.landWrites).bit = s.bit := rfl
@[simp] theorem State.landWrites_b0 : (s.landWrites).b0 = s.b0 := rfl
@[simp] theorem State.landWrites_b1 : (s.landWrites).b1 = s.b1 := rfl
@[simp] theorem State.landWrites_b2 : (s.landWrites).b2 = s.b2 := rfl
@[simp] theorem State.landWrites_b3 : (s.landWrites).b3 = s.b3 := rfl
@[simp] theorem State.landWrites_b4 : (s.landWrites).b4 = s.b4 := rfl
@[simp] theorem State.landWrites_sum : (s.landWrites).sum = s.sum := rfl
@[simp] theorem State.landWrites_matched : (s.landWrites).matched = s.matched := rfl
@[simp] theorem State.landWrites_status : (s.landWrites).status = s.status := rfl
@[simp] theorem State.landWrites_hum : (s.landWrites).hum = s.hum := rfl
@[simp] theorem State.landWrites_temp : (s.landWrites).temp = s.temp := rfl
@[simp] theorem State.landWrites_cb : (s.landWrites).cb = Memory.writeAll s.cb s.input.writes := rfl
@[simp] theorem State.landWrites_inputs : (s.landWrites).inputs = s.inputs := rfl
@[simp] theorem State.landWrites_resets : (s.landWrites).resets = s.resets := rfl

/-! ### advance -/

@[simp] theorem State.advance_phase : (s.advance).phase = s.phase := rfl
@[simp] theorem State.advance_i : (s.advance).i = s.i := rfl
@[simp] theorem State.advance_w : (s.advance).w = s.w := rfl
@[simp] theorem State.advance_bit : (s.advance).bit = s.bit := rfl
@[simp] theorem State.advance_b0 : (s.advance).b0 = s.b0 := rfl
@[simp] theorem State.advance_b1 : (s.advance).b1 = s.b1 := rfl
@[simp] theorem State.advance_b2 : (s.advance).b2 = s.b2 := rfl
@[simp] theorem State.advance_b3 : (s.advance).b3 = s.b3 := rfl
@[simp] theorem State.advance_b4 : (s.advance).b4 = s.b4 := rfl
@[simp] theorem State.advance_sum : (s.advance).sum = s.sum := rfl
@[simp] theorem State.advance_matched : (s.advance).matched = s.matched := rfl
@[simp] theorem State.advance_status : (s.advance).status = s.status := rfl
@[simp] theorem State.advance_hum : (s.advance).hum = s.hum := rfl
@[simp] theorem State.advance_temp : (s.advance).temp = s.temp := rfl
@[simp] theorem State.advance_cb : (s.advance).cb = s.cb := rfl
@[simp] theorem State.advance_inputs : (s.advance).inputs = s.inputs.tail := rfl
@[simp] theorem State.advance_resets : (s.advance).resets = s.resets := rfl

/-! ### clearWork -/

@[simp] theorem State.clearWork_phase : (s.clearWork).phase = s.phase := rfl
@[simp] theorem State.clearWork_i : (s.clearWork).i = 0 := rfl
@[simp] theorem State.clearWork_w : (s.clearWork).w = 0 := rfl
@[simp] theorem State.clearWork_bit : (s.clearWork).bit = false := rfl
@[simp] theorem State.clearWork_b0 : (s.clearWork).b0 = 0 := rfl
@[simp] theorem State.clearWork_b1 : (s.clearWork).b1 = 0 := rfl
@[simp] theorem State.clearWork_b2 : (s.clearWork).b2 = 0 := rfl
@[simp] theorem State.clearWork_b3 : (s.clearWork).b3 = 0 := rfl
@[simp] theorem State.clearWork_b4 : (s.clearWork).b4 = 0 := rfl
@[simp] theorem State.clearWork_sum : (s.clearWork).sum = 0 := rfl
@[simp] theorem State.clearWork_matched : (s.clearWork).matched = false := rfl
@[simp] theorem State.clearWork_status : (s.clearWork).status = s.status := rfl
@[simp] theorem State.clearWork_hum : (s.clearWork).hum = s.hum := rfl
@[simp] theorem State.clearWork_temp : (s.clearWork).temp = s.temp := rfl
@[simp] theorem State.clearWork_cb : (s.clearWork).cb = s.cb := rfl
@[simp] theorem State.clearWork_inputs : (s.clearWork).inputs = s.inputs := rfl
@[simp] theorem State.clearWork_resets : (s.clearWork).resets = s.resets := rfl

/-! ### resetRegs -/

@[simp] theorem State.resetRegs_phase : (s.resetRegs).phase = .idle := rfl
@[simp] theorem State.resetRegs_i : (s.resetRegs).i = 0 := rfl
@[simp] theorem State.resetRegs_w : (s.resetRegs).w = 0 := rfl
@[simp] theorem State.resetRegs_bit : (s.resetRegs).bit = false := rfl
@[simp] theorem State.resetRegs_b0 : (s.resetRegs).b0 = 0 := rfl
@[simp] theorem State.resetRegs_b1 : (s.resetRegs).b1 = 0 := rfl
@[simp] theorem State.resetRegs_b2 : (s.resetRegs).b2 = 0 := rfl
@[simp] theorem State.resetRegs_b3 : (s.resetRegs).b3 = 0 := rfl
@[simp] theorem State.resetRegs_b4 : (s.resetRegs).b4 = 0 := rfl
@[simp] theorem State.resetRegs_sum : (s.resetRegs).sum = 0 := rfl
@[simp] theorem State.resetRegs_matched : (s.resetRegs).matched = false := rfl
@[simp] theorem State.resetRegs_status : (s.resetRegs).status = .checksumError := rfl
@[simp] theorem State.resetRegs_hum : (s.resetRegs).hum = Config.resetHum s.resets := rfl
@[simp] theorem State.resetRegs_temp : (s.resetRegs).temp = Config.resetTemp s.resets := rfl
@[simp] theorem State.resetRegs_cb : (s.resetRegs).cb = s.cb := rfl
@[simp] theorem State.resetRegs_inputs : (s.resetRegs).inputs = s.inputs := rfl
@[simp] theorem State.resetRegs_resets : (s.resetRegs).resets = s.resets + 1 := rfl

/-! ### setB -/

@[simp] theorem State.setB_phase (j : Fin 5) (v : Byte) : (s.setB j v).phase = s.phase := by
  fin_cases j <;> rfl
@[simp] theorem State.setB_i (j : Fin 5) (v : Byte) : (s.setB j v).i = s.i := by
  fin_cases j <;> rfl
@[simp] theorem State.setB_w (j : Fin 5) (v : Byte) : (s.setB j v).w = s.w := by
  fin_cases j <;> rfl
@[simp] theorem State.setB_bit (j : Fin 5) (v : Byte) : (s.setB j v).bit = s.bit := by
  fin_cases j <;> rfl
@[simp] theorem State.setB_b0 (j : Fin 5) (v : Byte) :
    (s.setB j v).b0 = if j = 0 then v else s.b0 := by
  fin_cases j <;> rfl
@[simp] theorem State.setB_b1 (j : Fin 5) (v : Byte) :
    (s.setB j v).b1 = if j = 1 then v else s.b1 := by
  fin_cases j <;> rfl
@[simp] theorem State.setB_b2 (j : Fin 5) (v : Byte) :
    (s.setB j v).b2 = if j = 2 then v else s.b2 := by
  fin_cases j <;> rfl
@[simp] theorem State.setB_b3 (j : Fin 5) (v : Byte) :
    (s.setB j v).b3 = if j = 3 then v else s.b3 := by
  fin_cases j <;> rfl
@[simp] theorem State.setB_b4 (j : Fin 5) (v : Byte) :
    (s.setB j v).b4 = if j = 4 then v else s.b4 := by
  fin_cases j <;> rfl
@[simp] theorem State.setB_sum (j : Fin 5) (v : Byte) : (s.setB j v).sum = s.sum := by
  fin_cases j <;> rfl
@[simp] theorem State.setB_matched (j : Fin 5) (v : Byte) : (s.setB j v).matched = s.matched := by
  fin_cases j <;> rfl
@[simp] theorem State.setB_status (j : Fin 5) (v : Byte) : (s.setB j v).status = s.status := by
  fin_cases j <;> rfl
@[simp] theorem State.setB_hum (j : Fin 5) (v : Byte) : (s.setB j v).hum = s.hum := by
  fin_cases j <;> rfl
@[simp] theorem State.setB_temp (j : Fin 5) (v : Byte) : (s.setB j v).temp = s.temp := by
  fin_cases j <;> rfl
@[simp] theorem State.setB_cb (j : Fin 5) (v : Byte) : (s.setB j v).cb = s.cb := by
  fin_cases j <;> rfl
@[simp] theorem State.setB_inputs (j : Fin 5) (v : Byte) : (s.setB j v).inputs = s.inputs := by
  fin_cases j <;> rfl
@[simp] theorem State.setB_resets (j : Fin 5) (v : Byte) : (s.setB j v).resets = s.resets := by
  fin_cases j <;> rfl

/-- `B[j] <- v` and then `B[k]`. -/
theorem State.getB_setB (j k : Fin 5) (v : Byte) :
    (s.setB j v).getB k = if k = j then v else s.getB k := by
  fin_cases j <;> fin_cases k <;> rfl

/-! ### packBit -/

@[simp] theorem State.packBit_phase : (s.packBit).phase = s.phase := by
  unfold State.packBit; split <;> simp
@[simp] theorem State.packBit_i : (s.packBit).i = s.i := by
  unfold State.packBit; split <;> simp
@[simp] theorem State.packBit_w : (s.packBit).w = s.w := by
  unfold State.packBit; split <;> simp
@[simp] theorem State.packBit_bit : (s.packBit).bit = s.bit := by
  unfold State.packBit; split <;> simp
@[simp] theorem State.packBit_sum : (s.packBit).sum = s.sum := by
  unfold State.packBit; split <;> simp
@[simp] theorem State.packBit_matched : (s.packBit).matched = s.matched := by
  unfold State.packBit; split <;> simp
@[simp] theorem State.packBit_status : (s.packBit).status = s.status := by
  unfold State.packBit; split <;> simp
@[simp] theorem State.packBit_hum : (s.packBit).hum = s.hum := by
  unfold State.packBit; split <;> simp
@[simp] theorem State.packBit_temp : (s.packBit).temp = s.temp := by
  unfold State.packBit; split <;> simp
@[simp] theorem State.packBit_cb : (s.packBit).cb = s.cb := by
  unfold State.packBit; split <;> simp
@[simp] theorem State.packBit_inputs : (s.packBit).inputs = s.inputs := by
  unfold State.packBit; split <;> simp
@[simp] theorem State.packBit_resets : (s.packBit).resets = s.resets := by
  unfold State.packBit; split <;> simp

/-- Each byte after the shift: the one that `I div 8` names takes the bit, the others stay. -/
theorem State.getB_packBit (j : Fin 5) :
    (s.packBit).getB j = if s.i.val / 8 = j.val then shiftIn (s.getB j) s.bit else s.getB j := by
  unfold State.packBit frameByteIndex
  split_ifs with h5 hj hj
  · simp only [State.getB_setB, hj, if_true]
  · simp only [State.getB_setB, Fin.ext_iff, Ne.symm hj, if_false]
  · omega
  · rfl

@[simp] theorem State.packBit_b0 :
    (s.packBit).b0 = if s.i.val / 8 = 0 then shiftIn s.b0 s.bit else s.b0 := s.getB_packBit 0
@[simp] theorem State.packBit_b1 :
    (s.packBit).b1 = if s.i.val / 8 = 1 then shiftIn s.b1 s.bit else s.b1 := s.getB_packBit 1
@[simp] theorem State.packBit_b2 :
    (s.packBit).b2 = if s.i.val / 8 = 2 then shiftIn s.b2 s.bit else s.b2 := s.getB_packBit 2
@[simp] theorem State.packBit_b3 :
    (s.packBit).b3 = if s.i.val / 8 = 3 then shiftIn s.b3 s.bit else s.b3 := s.getB_packBit 3
@[simp] theorem State.packBit_b4 :
    (s.packBit).b4 = if s.i.val / 8 = 4 then shiftIn s.b4 s.bit else s.b4 := s.getB_packBit 4

/-- Two states with equal fields are equal. -/
theorem State.ext_fields {s t : State} (h : s.phase = t.phase ∧ s.i = t.i ∧ s.w = t.w ∧ s.bit = t.bit ∧ s.b0 = t.b0 ∧
    s.b1 = t.b1 ∧ s.b2 = t.b2 ∧ s.b3 = t.b3 ∧ s.b4 = t.b4 ∧ s.sum = t.sum ∧ s.matched = t.matched ∧
    s.status = t.status ∧ s.hum = t.hum ∧ s.temp = t.temp ∧ s.cb = t.cb ∧ s.inputs = t.inputs ∧
    s.resets = t.resets) : s = t := by
  cases s
  cases t
  simpa using h

/-- The fetch gives the micro-operation that `PHASE` names: no value of the phase type is a reserved code (R70). -/
@[simp] theorem State.fetch_eq : s.fetch = .ok s.phase := by
  unfold State.fetch State.phaseWord
  cases s.phase <;> rfl

end Sys2Proof.Machine
end

