-- ==== Sys2Proof/Laws/Exec.lean ====
section
/-! SUPPORT. What each shared operation, each meaning and the step can do, said once: the operand forms as arithmetic,
DIFF and PACK on either side of the last bit, the inversion of `exec` and of `step`, and runs of steps. -/

namespace Sys2Proof.Machine

/-! ### Operand forms as arithmetic -/

/-- The subtractor on numbers (spec/41_comparator_bit_decoder.md R103). -/
theorem pulseDifference_toNat (a b : Timestamp) :
    (pulseDifference a b).toNat = (b.toNat + 2 ^ 32 - a.toNat) % 2 ^ 32 := by
  rw [pulseDifference, BitVec.toNat_sub]
  congr 1
  have := a.isLt
  omega

/-- A narrow timestamp keeps its value (spec/20_memory.md R44). -/
theorem zeroExtendTimestamp_toNat {n : Nat} (h : n ≤ 32) (v : BitVec n) :
    (zeroExtendTimestamp v).toNat = v.toNat := by
  rw [zeroExtendTimestamp, BitVec.toNat_setWidth]
  exact Nat.mod_eq_of_lt (lt_of_lt_of_le v.isLt (Nat.pow_le_pow_right (by decide) h))

/-- The comparison of CMP on numbers (R102). -/
theorem bitOfWidth_iff (w : Timestamp) : bitOfWidth w = true ↔ 100 ≤ w.toNat := by
  simp [bitOfWidth]

/-- PACK's shift on numbers (spec/42_bit_packer.md R113). -/
theorem shiftIn_eq : ∀ (b : Byte) (bit : Bool), shiftIn b bit = BitVec.ofNat 8 (2 * b.toNat + bit.toNat) := by
  decide

/-- The sum on numbers (spec/43_checksum_validator.md R123). -/
theorem checksum_toNat (b0 b1 b2 b3 : Byte) :
    (checksum b0 b1 b2 b3).toNat = (b0.toNat + b1.toNat + b2.toNat + b3.toNat) % 256 := by
  simp only [checksum, BitVec.toNat_add]
  omega

/-- A high byte beside a low byte is their number in base 256. -/
theorem toNat_high_low (hi lo : Byte) :
    ((hi.setWidth 16 <<< 8) ||| lo.setWidth 16 : Tenths).toNat = hi.toNat * 256 + lo.toNat := by
  have hhi := hi.isLt
  have hlo := lo.isLt
  rw [BitVec.toNat_or, BitVec.toNat_shiftLeft, BitVec.toNat_setWidth, BitVec.toNat_setWidth,
    Nat.mod_eq_of_lt (a := hi.toNat) (by omega), Nat.mod_eq_of_lt (a := lo.toNat) (by omega),
    Nat.shiftLeft_eq, Nat.mod_eq_of_lt (by omega), Nat.mul_comm, ← Nat.two_pow_add_eq_or_of_lt hlo]

/-- Raw humidity on numbers (spec/30_encoding.md R63). -/
theorem rawHumidity_toNat (b0 b1 : Byte) : (rawHumidity b0 b1).toNat = b0.toNat * 256 + b1.toNat :=
  toNat_high_low b0 b1

/-- The seven low bits of a byte. -/
theorem and_0x7F_toNat (b : Byte) : (b &&& 0x7F#8).toNat = b.toNat % 128 := by
  rw [BitVec.toNat_and]
  exact Nat.and_two_pow_sub_one_eq_mod b.toNat 7

/-- The magnitude on numbers (R63). -/
theorem magnitude_toNat (b2 b3 : Byte) : (magnitude b2 b3).toNat = b2.toNat % 128 * 256 + b3.toNat := by
  rw [magnitude, toNat_high_low, and_0x7F_toNat]

/-- Bit 7 of a byte on numbers. -/
theorem signFlag_iff : ∀ b2 : Byte, signFlag b2 = true ↔ 128 ≤ b2.toNat := by decide

/-- `TEMP`'s value as a signed number (spec/44_value_extractor.md R132). -/
theorem signedTemperature_toInt (b2 b3 : Byte) : (signedTemperature b2 b3).toInt = temperatureTenths b2 b3 := by
  have hm := magnitude_toNat b2 b3
  have h3 := b3.isLt
  have hlt : (magnitude b2 b3).toNat < 32768 := by omega
  unfold signedTemperature temperatureTenths
  by_cases hs : signFlag b2 = true
  · rw [if_pos hs, if_pos ((signFlag_iff b2).1 hs), neg16, BitVec.toInt_eq_toNat_cond, BitVec.toNat_sub, hm]
    simp only [BitVec.toNat_ofNat]
    split <;> omega
  · rw [if_neg hs, if_neg (fun h => hs ((signFlag_iff b2).2 h)), BitVec.toInt_eq_toNat_cond, hm]
    split <;> omega

/-! ### DIFF and PACK on either side of the last bit -/

/-- An entry of the buffer, as DIFF takes it. -/
theorem State.entryAt_of_lt (s : State) {k : Nat} (h : k < 43) : s.entryAt k = Memory.read s.cb k := by
  simp [State.entryAt, State.readEntry, h]

/-- DIFF takes the same entry from two buffers that agree on it. -/
theorem State.entryAt_congr {s t : State} {k : Nat} (h : k < 43 → Memory.read t.cb k = Memory.read s.cb k) :
    t.entryAt k = s.entryAt k := by
  by_cases hk : k < 43
  · rw [t.entryAt_of_lt hk, s.entryAt_of_lt hk, h hk]
  · simp [State.entryAt, State.readEntry, hk]

/-- DIFF below the bound (spec/41_comparator_bit_decoder.md R101). -/
theorem execDiff_of_lt {s : State} (h : s.i.val ≤ 39) :
    execDiff s = .next { s with
      w := pulseDifference (Memory.read s.cb (s.i.val + 2)) (Memory.read s.cb (s.i.val + 3)), phase := .cmp } := by
  rw [execDiff, s.entryAt_of_lt (show s.openIndex < 43 by simp only [State.openIndex, Config.edgeSkip]; omega),
    s.entryAt_of_lt (show s.closeIndex < 43 by simp only [State.closeIndex, Config.edgeSkip]; omega)]
  rfl

/-- DIFF past the last bit: the free value stands for `CB[43]`. -/
theorem execDiff_past_end {s : State} (h : s.i.val = 40) :
    execDiff s = .next { s with
      w := pulseDifference (Memory.read s.cb 42) (Config.absentEntry 43), phase := .cmp } := by
  simp [execDiff, State.entryAt, State.readEntry, State.openIndex, State.closeIndex, Config.edgeSkip, h]

/-- The count below the bound (spec/10_state.md R21). -/
theorem nextIndex_of_lt {i k : Fin 41} (hk : k.val = i.val + 1) : nextIndex i = k := by
  rw [nextIndex, dif_pos (by omega)]
  exact Fin.ext hk.symm

/-- PACK below the bound (spec/42_bit_packer.md R110). -/
theorem execPack_of_lt {s : State} {j : Fin 5} {k : Fin 41} (hj : s.i.val / 8 = j.val) (hk : k.val = s.i.val + 1) :
    execPack s = .next { s.setB j (shiftIn (s.getB j) s.bit) with
      i := k, phase := if s.i.val = 39 then .sum else .diff } := by
  have hj' : frameByteIndex s.i = some j := by
    rw [frameByteIndex, dif_pos (by omega)]
    exact congrArg some (Fin.ext hj)
  simp only [execPack, State.packBit, hj', nextIndex_of_lt hk, packSuccessor]

/-- PACK past the last bit: no byte is written, and the count is the free value. -/
theorem execPack_past_end {s : State} (h : s.i.val = 40) :
    execPack s = .next { s with i := Config.indexPastEnd 41, phase := .diff } := by
  simp [execPack, State.packBit, frameByteIndex, nextIndex, packSuccessor, h]

/-! ### Inversion of `exec` and of `step` -/

/-- What a micro-operation makes of a state, with the operand forms resolved. -/
def State.afterOp (s : State) : Instr → State
  | .idle => { s with phase := if s.start then .init else .idle }
  | .init => { s.clearWork with status := .checksumError, phase := .diff }
  | .diff => { s with w := pulseDifference (s.entryAt (s.i.val + 2)) (s.entryAt (s.i.val + 3)), phase := .cmp }
  | .cmp => { s with bit := bitOfWidth s.w, phase := .pack }
  | .pack => { s.packBit with i := nextIndex s.i, phase := if s.i.val = 39 then .sum else .diff }
  | .sum => { s with sum := checksum s.b0 s.b1 s.b2 s.b3, phase := .chk }
  | .chk =>
    { s with matched := checksumMatches s.sum s.b4, phase := if checksumMatches s.sum s.b4 then .hum else .done }
  | .hum => { s with hum := rawHumidity s.b0 s.b1, phase := .tmp }
  | .tmp => { s with temp := signedTemperature s.b2 s.b3, phase := .ok }
  | .ok => { s with status := .ok, phase := .done }
  | .done => { s with phase := .idle }

/-- Every micro-operation completes in every state (spec/60_exceptions.md R140), in the state `afterOp` gives. -/
theorem exec_eq_afterOp (i : Instr) (s : State) : exec i s = .next (s.afterOp i) := by
  cases i <;> rfl

/-- The inversion of `exec`: it has one outcome. Cases on `i` then show it. -/
theorem eq_afterOp_of_exec {i : Instr} {s t : State} (h : exec i s = .next t) : t = s.afterOp i := by
  rw [exec_eq_afterOp] at h
  exact (Host.Outcome.next.inj h).symm

/-- A micro-operation leaves the buffer alone (spec/20_memory.md R43). -/
@[simp] theorem State.afterOp_cb (s : State) (i : Instr) : (s.afterOp i).cb = s.cb := by
  cases i <;> simp [State.afterOp]
@[simp] theorem State.afterOp_inputs (s : State) (i : Instr) : (s.afterOp i).inputs = s.inputs := by
  cases i <;> simp [State.afterOp]
@[simp] theorem State.afterOp_resets (s : State) (i : Instr) : (s.afterOp i).resets = s.resets := by
  cases i <;> simp [State.afterOp]

/-- The step, its fetch and its micro-operation resolved: it never meets a reserved code, and only a racing host write
keeps it from a next state. -/
theorem step_eq (s : State) :
    step s =
      if s.rst then .next s.landWrites.resetRegs.advance
      else if s.racing then .refused .captureWriteDuringDecode
      else .next (s.landWrites.afterOp s.phase).advance := by
  simp only [step, State.fetch_eq, exec_eq_afterOp, advanceOutcome]

/-- Everything a step that gives a next state can do. -/
theorem step_next_cases {s t : State} (h : step s = .next t) :
    (s.rst = true ∧ t = s.landWrites.resetRegs.advance) ∨
    (s.rst = false ∧ s.racing = false ∧ t = (s.landWrites.afterOp s.phase).advance) := by
  rw [step_eq] at h
  split at h
  · exact .inl ⟨‹_›, (Host.Outcome.next.inj h).symm⟩
  · split at h
    · cases h
    · exact .inr ⟨Bool.eq_false_iff.2 ‹_›, Bool.eq_false_iff.2 ‹_›, (Host.Outcome.next.inj h).symm⟩

/-! ### Inputs that leave a decode alone, and runs of steps -/

/-- An exhausted or undisturbing next input neither resets nor races. -/
theorem quiet_of_undisturbed {n : Nat} {s : State} (h : Undisturbed (n + 1) s) :
    s.rst = false ∧ s.racing = false ∧ ∀ w ∈ s.input.writes, w.index.val < 2 := by
  have key : StepInput.Undisturbing s.input := by
    unfold State.input
    cases hi : s.inputs with
    | nil => exact ⟨rfl, by simp⟩
    | cons x rest => exact h x (by simp [hi])
  refine ⟨key.1, ?_, key.2⟩
  have : (s.input.writes.any fun w => decide (2 ≤ w.index.val)) = false := by
    rw [List.any_eq_false]
    intro w hw
    have := key.2 w hw
    simp only [decide_eq_true_eq]
    omega
  simp [State.racing, this]

/-- A step that neither resets nor races runs its micro-operation. -/
theorem step_of_exec {s u : State} (hr : s.rst = false) (hc : s.racing = false)
    (he : exec s.phase s.landWrites = .next u) : step s = .next u.advance := by
  simp [step_eq, hr, hc, eq_afterOp_of_exec he]

/-- Runs compose. -/
theorem steps_add {m n : Nat} {s t : State} (h : steps m s = .next t) : steps (m + n) s = steps n t := by
  induction m generalizing s with
  | zero =>
    rw [steps] at h
    injection h with h
    rw [Nat.zero_add, h]
  | succ m ih =>
    rw [Nat.add_right_comm, steps]
    rw [steps] at h
    cases hs : step s with
    | next u =>
      rw [hs] at h
      exact ih h
    | fault r => simp [hs] at h
    | refused r => simp [hs] at h

/-- A run of one step. -/
theorem steps_one {s t : State} (h : step s = .next t) : steps 1 s = .next t := by
  simp [steps, h]

end Sys2Proof.Machine
end

