-- ==== Sys2Proof/Laws/PerInstr.lean ====
section
/-! SUPPORT. The statements made per micro-operation (LAWS.json). -/

namespace Sys2Proof.Laws

/-- Family RoundTrip: an operation is well formed, and the byte its encoding gives decodes back to it
(spec/30_encoding.md R66, R67). -/
def RoundTrip.Statement (i : Instr) : Prop := i.wellFormed = true ∧ decodeByte (encodeByte i) = .ok i

theorem RoundTrip.idle : RoundTrip.Statement .idle := ⟨rfl, rfl⟩
theorem RoundTrip.init : RoundTrip.Statement .init := ⟨rfl, rfl⟩
theorem RoundTrip.diff : RoundTrip.Statement .diff := ⟨rfl, rfl⟩
theorem RoundTrip.cmp : RoundTrip.Statement .cmp := ⟨rfl, rfl⟩
theorem RoundTrip.pack : RoundTrip.Statement .pack := ⟨rfl, rfl⟩
theorem RoundTrip.sum : RoundTrip.Statement .sum := ⟨rfl, rfl⟩
theorem RoundTrip.chk : RoundTrip.Statement .chk := ⟨rfl, rfl⟩
theorem RoundTrip.hum : RoundTrip.Statement .hum := ⟨rfl, rfl⟩
theorem RoundTrip.tmp : RoundTrip.Statement .tmp := ⟨rfl, rfl⟩
theorem RoundTrip.ok : RoundTrip.Statement .ok := ⟨rfl, rfl⟩
theorem RoundTrip.done : RoundTrip.Statement .done := ⟨rfl, rfl⟩

end Sys2Proof.Laws
end

