-- ==== Sys2Proof/Laws/Transaction.lean ====
section
/-! SUPPORT. What a decode transaction does, in lemmas: how inputs are used up, a run of micro-operations on a stable
buffer (`stableRun`), its transfer to the step, the loop of 40 bits, and the frame as numbers. -/

namespace Sys2Proof.Machine

/-! ### How a step uses up its inputs -/

/-- The host writes of `n + 1` inputs are those of the first and then those of `n` more. -/
theorem landed_succ (n : Nat) {s t : State} (hcb : t.cb = Memory.writeAll s.cb s.input.writes)
    (hin : t.inputs = s.inputs.tail) : landed (n + 1) s = landed n t := by
  unfold landed
  rw [hcb, hin]
  cases h : s.inputs with
  | nil => simp [State.input, h, Memory.writeAll]
  | cons x rest => simp [State.input, h]

/-- Dropping `n + 1` inputs is dropping `n` of the tail. -/
theorem drop_succ (n : Nat) {s t : State} (hin : t.inputs = s.inputs.tail) :
    s.inputs.drop (n + 1) = t.inputs.drop n := by
  rw [hin]
  simp [List.drop_tail]

/-- Undisturbed for `n + 1` steps is undisturbed for `n` after the first. -/
theorem undisturbed_tail {n : Nat} {s t : State} (h : Undisturbed (n + 1) s) (hin : t.inputs = s.inputs.tail) :
    Undisturbed n t := by
  intro x hx
  apply h x
  rw [hin] at hx
  cases hi : s.inputs with
  | nil => simp [hi] at hx
  | cons y rest => simp only [hi, List.tail_cons] at hx; simp [hx]

/-- Two buffers that agree on the 41 entries the block reads (spec/20_memory.md R41). -/
def SamePayload (m m' : Memory) : Prop := ∀ k, 2 ≤ k → k ≤ 42 → Memory.read m k = Memory.read m' k

/-- Writes to entries 0 and 1 keep the payload. -/
theorem samePayload_land {m : Memory} {s : State} (hw : ∀ w ∈ s.input.writes, w.index.val < 2)
    (h : SamePayload s.cb m) : SamePayload s.landWrites.cb m := by
  intro k h1 h2
  rw [State.landWrites_cb, Memory.read_writeAll_of_ne]
  · exact h k h1 h2
  · intro w hmem
    have := hw w hmem
    omega

/-! ### Runs on a stable buffer -/

/-- `n` micro-operations one after the other, IDLE not among them, with the buffer and the inputs left as they are. -/
def stableRun : Nat → State → Option State
  | 0, s => some s
  | n + 1, s =>
    if s.phase = .idle then none
    else match exec s.phase s with
      | .next t => stableRun n t
      | _ => none

/-- Runs on a stable buffer compose. -/
theorem stableRun_add {m n : Nat} {s t : State} (h : stableRun m s = some t) :
    stableRun (m + n) s = stableRun n t := by
  induction m generalizing s with
  | zero =>
    simp only [stableRun, Option.some.injEq] at h
    rw [h, Nat.zero_add]
  | succ m ih =>
    rw [Nat.add_right_comm, stableRun]
    rw [stableRun] at h
    split at h
    · cases h
    · rename_i hid
      rw [if_neg hid]
      split at h
      · exact ih h
      · cases h

/-- A micro-operation other than IDLE does the same with other inputs and with a buffer of the same payload. -/
theorem exec_with_host {i : Instr} {s t : State} (hi : i ≠ .idle) (m : Memory) (l : List StepInput)
    (hm : SamePayload m s.cb) (h : exec i s = .next t) :
    exec i { s with cb := m, inputs := l } = .next { t with cb := m, inputs := l } := by
  rw [eq_afterOp_of_exec h, exec_eq_afterOp]
  congr 1
  cases i with
  | idle => exact absurd rfl hi
  | diff =>
    have entry : ∀ k, 2 ≤ k → State.entryAt { s with cb := m, inputs := l } k = s.entryAt k := fun k hk =>
      State.entryAt_congr fun h => hm k hk (by omega)
    simp only [State.afterOp]
    rw [entry _ (by omega), entry _ (by omega)]
  | pack =>
    simp only [State.afterOp, State.packBit]
    cases frameByteIndex s.i with
    | none => rfl
    | some j => fin_cases j <;> rfl
  | _ => rfl

/-- An undisturbed run of steps does what the run on a stable buffer does, and uses up its inputs. -/
theorem steps_of_stableRun (n : Nat) : ∀ (s u t : State), stableRun n u = some t →
    s = { u with cb := s.cb, inputs := s.inputs } → SamePayload s.cb u.cb → Undisturbed n s →
    steps n s = .next { t with cb := landed n s, inputs := s.inputs.drop n } := by
  induction n with
  | zero =>
    intro s u t h hs _ _
    simp only [stableRun, Option.some.injEq] at h
    subst h
    simp only [steps, landed, List.take_zero, List.foldl_nil, List.drop_zero]
    rw [← hs]
  | succ n ih =>
    intro s u t h hs hp hu
    rw [stableRun] at h
    split at h
    · cases h
    rename_i hid
    split at h
    · rename_i v hv
      obtain ⟨hr, hc, hw⟩ := quiet_of_undisturbed hu
      have hph : s.phase = u.phase := by rw [hs]
      have hl : s.landWrites = { u with cb := s.landWrites.cb, inputs := s.inputs } := by
        conv_lhs => rw [State.landWrites, hs]
        simp [State.input]
      have he : exec s.phase s.landWrites = .next { v with cb := s.landWrites.cb, inputs := s.inputs } := by
        rw [hl, hph]
        exact exec_with_host hid _ _ (samePayload_land hw hp) hv
      rw [steps, step_of_exec hr hc he]
      simp only
      rw [ih _ v t h rfl (by rw [eq_afterOp_of_exec hv, State.afterOp_cb]; exact samePayload_land hw hp) (undisturbed_tail hu rfl)]
      congr 1
      rw [← landed_succ n (s := s) rfl rfl, ← drop_succ n (s := s) rfl]
    · cases h

/-- An IDLE step with `start` and without `rst` only goes to INIT (spec/40_sequence_control.md R82). -/
theorem step_accepts {s : State} (hp : s.phase = .idle) (hr : s.rst = false) (hs : s.start = true) :
    step s = .next { s with
      phase := .init, cb := Memory.writeAll s.cb s.input.writes, inputs := s.inputs.tail } := by
  have hc : s.racing = false := by simp [State.racing, State.busy, hp]
  rw [step_of_exec (u := { s.landWrites with phase := .init }) hr hc]
  · rfl
  · have : s.landWrites.start = true := hs
    rw [hp]
    simp [exec, execIdle, this]

/-! ### The frame as numbers -/

/-- DIFF's subtractor gives `PW[i]` of R94. -/
theorem pulseDifference_eq (m : Memory) (i : Nat) :
    pulseDifference (Memory.read m (i + 2)) (Memory.read m (i + 3)) = BitVec.ofNat 32 (pulseWidth m i) := by
  apply BitVec.eq_of_toNat_eq
  rw [pulseDifference_toNat, BitVec.toNat_ofNat, pulseWidth]
  omega

/-- CMP gives `bit[i]` of R94. -/
theorem bitOfWidth_eq (m : Memory) (i : Nat) : bitOfWidth (BitVec.ofNat 32 (pulseWidth m i)) = pulseBit m i := by
  have : pulseWidth m i < 2 ^ 32 := Nat.mod_lt _ (by decide)
  rw [Bool.eq_iff_iff, bitOfWidth_iff, BitVec.toNat_ofNat, Nat.mod_eq_of_lt this, pulseBit]
  simp

/-- Eight bits shifted into a cleared byte, as a number (spec/42_bit_packer.md R111). -/
theorem shiftIn_eight_toNat (x0 x1 x2 x3 x4 x5 x6 x7 : Bool) :
    ([x0, x1, x2, x3, x4, x5, x6, x7].foldl shiftIn 0).toNat =
      ((List.range 8).map fun k => ([x0, x1, x2, x3, x4, x5, x6, x7].getD k false).toNat * 2 ^ (7 - k)).sum := by
  rw [show List.range 8 = [0, 1, 2, 3, 4, 5, 6, 7] from rfl]
  simp only [List.map_cons, List.map_nil, List.sum_cons, List.sum_nil, List.foldl, shiftIn_eq, BitVec.toNat_ofNat,
    List.getD_cons_zero, List.getD_cons_succ]
  have := Bool.toNat_le x0
  have := Bool.toNat_le x1
  have := Bool.toNat_le x2
  have := Bool.toNat_le x3
  have := Bool.toNat_le x4
  have := Bool.toNat_le x5
  have := Bool.toNat_le x6
  have := Bool.toNat_le x7
  omega

/-- Byte `j` of the frame is its eight bits shifted in. -/
theorem frameByte_eq_fold (m : Memory) (j : Nat) :
    ([pulseBit m (8 * j + 0), pulseBit m (8 * j + 1), pulseBit m (8 * j + 2), pulseBit m (8 * j + 3),
      pulseBit m (8 * j + 4), pulseBit m (8 * j + 5), pulseBit m (8 * j + 6), pulseBit m (8 * j + 7)].foldl
        shiftIn 0).toNat = frameByte m j := by
  rw [shiftIn_eight_toNat, frameByte, show List.range 8 = [0, 1, 2, 3, 4, 5, 6, 7] from rfl]
  simp only [List.map_cons, List.map_nil, List.getD_cons_zero, List.getD_cons_succ]

/-- A frame byte is a byte. -/
theorem frameByte_lt (m : Memory) (j : Nat) : frameByte m j < 256 := by
  rw [← frameByte_eq_fold]
  exact BitVec.isLt _

/-- SUM gives `SUM` of R94. -/
theorem checksum_frame (m : Memory) :
    checksum (BitVec.ofNat 8 (frameByte m 0)) (BitVec.ofNat 8 (frameByte m 1)) (BitVec.ofNat 8 (frameByte m 2))
      (BitVec.ofNat 8 (frameByte m 3)) = BitVec.ofNat 8 (frameSum m) := by
  apply BitVec.eq_of_toNat_eq
  rw [checksum_toNat]
  simp only [BitVec.toNat_ofNat, frameSum]
  omega

/-- CHK gives `MATCH` of R94. -/
theorem checksumMatches_frame (m : Memory) :
    checksumMatches (BitVec.ofNat 8 (frameSum m)) (BitVec.ofNat 8 (frameByte m 4)) = frameMatches m := by
  unfold checksumMatches frameMatches
  congr 1
  rw [eq_iff_iff]
  constructor
  · intro h
    have := congrArg BitVec.toNat h
    have h4 := frameByte_lt m 4
    have hs : frameSum m < 256 := Nat.mod_lt _ (by decide)
    simpa [Nat.mod_eq_of_lt h4, Nat.mod_eq_of_lt hs] using this
  · intro h
    rw [h]

/-- HUM gives `HUM` of R94. -/
theorem rawHumidity_frame (m : Memory) :
    rawHumidity (BitVec.ofNat 8 (frameByte m 0)) (BitVec.ofNat 8 (frameByte m 1)) =
      BitVec.ofNat 16 (frameHumidity m) := by
  apply BitVec.eq_of_toNat_eq
  have := frameByte_lt m 0
  have := frameByte_lt m 1
  rw [rawHumidity_toNat]
  simp only [BitVec.toNat_ofNat, frameHumidity]
  omega

/-- TMP gives `TEMP` of R94. -/
theorem signedTemperature_frame (m : Memory) :
    signedTemperature (BitVec.ofNat 8 (frameByte m 2)) (BitVec.ofNat 8 (frameByte m 3)) =
      BitVec.ofNat 16 (frameTemperature m) := by
  apply BitVec.eq_of_toNat_eq
  have h2 := frameByte_lt m 2
  have h3 := frameByte_lt m 3
  have hm := magnitude_toNat (BitVec.ofNat 8 (frameByte m 2)) (BitVec.ofNat 8 (frameByte m 3))
  have hsf := signFlag_iff (BitVec.ofNat 8 (frameByte m 2))
  simp only [BitVec.toNat_ofNat, Nat.reducePow, Nat.mod_eq_of_lt h2, Nat.mod_eq_of_lt h3] at hm hsf
  unfold signedTemperature frameTemperature
  simp only
  by_cases h : 128 ≤ frameByte m 2
  · rw [if_pos (hsf.2 h), if_pos h, neg16, BitVec.toNat_sub, hm]
    simp only [BitVec.toNat_ofNat]
    omega
  · rw [if_neg (fun x => h (hsf.1 x)), if_neg h, hm]
    simp only [BitVec.toNat_ofNat]
    omega

/-! ### The loop of 40 bits -/

/-- Byte `j` after `k` PACKs from cleared bytes. -/
def bytesAfter (m : Memory) : Nat → Fin 5 → Byte
  | 0, _ => 0
  | k + 1, j => if k / 8 = j.val then shiftIn (bytesAfter m k j) (pulseBit m k) else bytesAfter m k j

/-- Before its bits come a byte is 0. -/
theorem bytesAfter_before (m : Memory) (j : Fin 5) : ∀ k, k ≤ 8 * j.val → bytesAfter m k j = 0
  | 0, _ => rfl
  | k + 1, h => by
    rw [bytesAfter, if_neg (by omega)]
    exact bytesAfter_before m j k (by omega)

/-- While its bits come they are shifted in. -/
theorem bytesAfter_during (m : Memory) (j : Fin 5) (n : Nat) (hn : n < 8) :
    bytesAfter m (8 * j.val + n + 1) j = shiftIn (bytesAfter m (8 * j.val + n) j) (pulseBit m (8 * j.val + n)) := by
  rw [bytesAfter, if_pos (by omega)]

/-- After its bits have come a byte stays. -/
theorem bytesAfter_past (m : Memory) (j : Fin 5) : ∀ n, bytesAfter m (8 * j.val + 8 + n) j =
    bytesAfter m (8 * j.val + 8) j
  | 0 => rfl
  | n + 1 => by
    rw [← Nat.add_assoc, bytesAfter, if_neg (by omega)]
    exact bytesAfter_past m j n

/-- After 40 PACKs the bytes are the frame of R94. -/
theorem bytesAfter_forty (m : Memory) (j : Fin 5) : bytesAfter m 40 j = BitVec.ofNat 8 (frameByte m j.val) := by
  apply BitVec.eq_of_toNat_eq
  rw [← frameByte_eq_fold, BitVec.toNat_ofNat, Nat.mod_eq_of_lt (BitVec.isLt _)]
  congr 1
  have hj := j.isLt
  obtain ⟨n, hn⟩ : ∃ n, 40 = 8 * j.val + 8 + n := ⟨40 - (8 * j.val + 8), by omega⟩
  rw [hn, bytesAfter_past, bytesAfter_during m j 7 (by omega), bytesAfter_during m j 6 (by omega),
    bytesAfter_during m j 5 (by omega), bytesAfter_during m j 4 (by omega), bytesAfter_during m j 3 (by omega),
    bytesAfter_during m j 2 (by omega), bytesAfter_during m j 1 (by omega), bytesAfter_during m j 0 (by omega),
    bytesAfter_before m j _ (by omega)]
  rfl

/-- The state at the head of the loop after `k` bits of the buffer `s.cb`. -/
def loopState (s : State) (k : Nat) (hk : k < 41) : State :=
  { s with
    phase := if k = 40 then .sum else .diff
    i := ⟨k, hk⟩
    w := if k = 0 then 0 else BitVec.ofNat 32 (pulseWidth s.cb (k - 1))
    bit := if k = 0 then false else pulseBit s.cb (k - 1)
    b0 := bytesAfter s.cb k 0
    b1 := bytesAfter s.cb k 1
    b2 := bytesAfter s.cb k 2
    b3 := bytesAfter s.cb k 3
    b4 := bytesAfter s.cb k 4
    sum := 0
    matched := false
    status := .checksumError }

/-- One DIFF, CMP, PACK decodes and packs bit `k` (spec/30_encoding.md R72, BITSTEP). -/
theorem stableRun_bitStep (s : State) (k : Nat) (hk : k < 40) :
    stableRun 3 (loopState s k (by omega)) = some (loopState s (k + 1) (by omega)) := by
  have diff : exec .diff (loopState s k (by omega)) = .next { loopState s k (by omega) with
      w := BitVec.ofNat 32 (pulseWidth s.cb k), phase := .cmp } := by
    rw [exec, execDiff_of_lt (by simp only [loopState]; omega)]
    simp only [loopState, pulseDifference_eq]
  have pack : exec .pack { loopState s k (by omega) with
      w := BitVec.ofNat 32 (pulseWidth s.cb k), bit := pulseBit s.cb k, phase := .pack } =
        .next (loopState s (k + 1) (by omega)) := by
    rw [exec, execPack_of_lt (j := ⟨k / 8, by omega⟩) (k := ⟨k + 1, by omega⟩) (by simp [loopState])
      (by simp [loopState])]
    congr 1
    apply State.ext_fields
    have hit : ∀ j : Fin 5, k / 8 = j.val → (⟨k / 8, by omega⟩ : Fin 5) = j := fun j h => Fin.ext h
    have same : ∀ j : Fin 5, ((⟨k / 8, by omega⟩ : Fin 5) = j) ↔ k / 8 = j.val := fun j => Fin.ext_iff
    simp only [loopState, State.setB_cb, State.setB_w, State.setB_bit, State.setB_b0, State.setB_b1, State.setB_b2,
      State.setB_b3, State.setB_b4, State.setB_sum, State.setB_matched, State.setB_status, State.setB_hum,
      State.setB_temp, State.setB_inputs, State.setB_resets, bytesAfter, same]
    refine ⟨by by_cases h39 : k = 39 <;> simp [h39], trivial, by simp, by simp, ?_, ?_, ?_, ?_, ?_, trivial, trivial,
      trivial, trivial, trivial, trivial, trivial, trivial⟩
    all_goals
      split
      · rename_i h
        rw [hit _ h]
        rfl
      · rfl
  have hphase : (loopState s k (by omega)).phase = .diff := by
    simp only [loopState]
    rw [if_neg (by omega)]
  simp only [stableRun, hphase, reduceCtorEq, if_false, diff]
  simp only [exec, execCmp, bitOfWidth_eq] at pack ⊢
  simp only [pack, reduceCtorEq, if_false]

/-- The whole loop. -/
theorem stableRun_loop (s : State) : ∀ k (hk : k < 41),
    stableRun (3 * k) (loopState s 0 (by omega)) = some (loopState s k hk)
  | 0, _ => rfl
  | k + 1, hk => by
    rw [show 3 * (k + 1) = 3 * k + 3 by omega, stableRun_add (stableRun_loop s k (by omega)),
      stableRun_bitStep s k (by omega)]

/-- INIT enters the loop. -/
theorem stableRun_init {s : State} (h : s.phase = .init) :
    stableRun 1 s = some (loopState s 0 (by omega)) := by
  simp only [stableRun, h, reduceCtorEq, if_false, exec, execInit]
  rfl

/-- From the end of the loop to IDLE, by way of the checksum verdict. -/
theorem stableRun_verdict (s : State) :
    stableRun (if frameMatches s.cb then 6 else 3) (loopState s 40 (by omega)) = some (s.afterDecode s.cb) := by
  have e0 := bytesAfter_forty s.cb 0
  have e1 := bytesAfter_forty s.cb 1
  have e2 := bytesAfter_forty s.cb 2
  have e3 := bytesAfter_forty s.cb 3
  have e4 := bytesAfter_forty s.cb 4
  have hs := checksum_frame s.cb
  have hm := checksumMatches_frame s.cb
  cases h : frameMatches s.cb with
  | true =>
    rw [h] at hm
    simp [stableRun, loopState, exec, execSum, execChk, execHum, execTmp, execOk, execDone, e0, e1, e2, e3, e4, hs, hm,
      rawHumidity_frame, signedTemperature_frame, State.afterDecode, h]
  | false =>
    rw [h] at hm
    simp [stableRun, loopState, exec, execSum, execChk, execDone, e0, e1, e2, e3, e4, hs, hm, State.afterDecode, h]

end Sys2Proof.Machine
end

