-- ==== Sys2Proof/Tests/Slice0.lean ====
section
/-! SUPPORT. Small tests, their expected values from spec/95_test_vectors.md (V and X numbers) and from the tables of
spec/30_encoding.md, and one witness for the hypotheses of each statement that has some. -/

namespace Sys2Proof.Tests

open Sys2Proof.Machine

/-! ### Helpers -/

/-- An idle state with recognisable values in the registers that a decode does not clear. -/
def base : State := { State.reset with hum := 0x1234#16, temp := 0x5678#16 }

/-- `base` at a phase and a bit index. -/
def at' (p : Instr) (i : Fin 41) : State := { base with phase := p, i := i }

/-- `base` holding a frame. -/
def holding (b0 b1 b2 b3 b4 : Byte) : State := { base with b0 := b0, b1 := b1, b2 := b2, b3 := b3, b4 := b4 }

/-- What a next state shows; nothing for a fault or a refusal. -/
def seen {α : Type} (f : State → α) : Host.Outcome State Fault Refusal → Option α
  | .next t => some (f t)
  | .fault _ => none
  | .refused _ => none

/-! ### Well-formedness smoke: each check refuses an ill-formed term -/

theorem test_wf_phase_word_refused : PhaseWord.wellFormed 11#4 = false := by decide
theorem test_wf_phase_word_accepted : PhaseWord.wellFormed 10#4 = true := by decide
theorem test_wf_entries_refused : (Stimulus.entries [1, 2, 3]).wellFormed = false := by decide
theorem test_wf_widths_refused : (Stimulus.widths 0 (List.replicate 41 78)).wellFormed = false := by decide
theorem test_wf_frame_zero_width_refused : (Stimulus.frame 0 100 120 0 0 0 0 0).wellFormed = false := by decide
theorem test_wf_frame_one_width_refused : (Stimulus.frame 0 78 99 0 0 0 0 0).wellFormed = false := by decide
theorem test_wf_frame_accepted : (Stimulus.frame 160 99 100 2 124 1 17 144).wellFormed = true := by decide
theorem test_wf_memory_unsorted_refused : Memory.wf [(3, 1), (2, 1)] = false := by decide
theorem test_wf_memory_unlisted_value_refused : Memory.wf [(3, 0)] = false := by decide
theorem test_wf_memory_index_refused : Memory.wf [(43, 1)] = false := by decide

/-! ### Decoding: words written out from the table of R66 -/

theorem test_decode_idle : decodeTableWord 8 0b0000 = some .idle := by decide
theorem test_decode_init : decodeTableWord 8 0b0001 = some .init := by decide
theorem test_decode_diff : decodeTableWord 8 0b0010 = some .diff := by decide
theorem test_decode_cmp : decodeTableWord 8 0b0011 = some .cmp := by decide
theorem test_decode_pack : decodeTableWord 8 0b0100 = some .pack := by decide
theorem test_decode_sum : decodeTableWord 8 0b0101 = some .sum := by decide
theorem test_decode_chk : decodeTableWord 8 0b0110 = some .chk := by decide
theorem test_decode_hum : decodeTableWord 8 0b0111 = some .hum := by decide
theorem test_decode_tmp : decodeTableWord 8 0b1000 = some .tmp := by decide
theorem test_decode_ok : decodeTableWord 8 0b1001 = some .ok := by decide
theorem test_decode_done : decodeTableWord 8 0b1010 = some .done := by decide
theorem test_decode_reserved : decodeTableWord 8 0b1011 = none := by decide
theorem test_decode_high_nibble : decodeTableWord 8 0b10000 = none := by decide
theorem test_step_runs_placed_word :
    step (State.reset.withFetchWord 8 0b0011) = exec .cmp (State.reset.withFetchWord 8 0b0011) := rfl

/-! ### One micro-operation each -/

/-- X40 and X41. -/
theorem test_idle_waits : seen (·.phase) (step base) = some .idle := by decide
theorem test_idle_accepts : seen (fun t => (t.phase, t.hum)) (step { base with inputs := [{ start := true }] }) =
    some (.init, 0x1234#16) := by decide

/-- X42. -/
theorem test_init_fresh : seen (fun t => (t.phase, t.i, t.status, t.b0, t.matched, t.hum))
    (exec .init { holding 0x02 0x7C 0x01 0x11 0x90 with i := 40, status := .ok, matched := true }) =
      some (.diff, 0, .checksumError, 0x00#8, false, 0x1234#16) := by decide

/-- X4 and X5: the wrap of the subtractor. -/
theorem test_diff_counter_wrap : seen (fun t => (t.w, t.phase))
    (exec .diff { at' .diff 23 with cb := [(25, 4294967294#32), (26, 118#32)] }) = some (120#32, .cmp) := by decide
theorem test_diff_disorder : seen (·.w) (exec .diff { at' .diff 7 with cb := [(9, 500#32), (10, 499#32)] }) =
    some 4294967295#32 := by decide

/-- X8 and X9, V5. -/
theorem test_cmp_below : seen (fun t => (t.bit, t.phase)) (exec .cmp { base with w := 99, bit := true }) =
    some (false, .pack) := by decide
theorem test_cmp_inclusive : seen (·.bit) (exec .cmp { base with w := 100 }) = some true := by decide

/-- X19 and X17. -/
theorem test_pack_last_bit : seen (fun t => (t.b4, t.i, t.phase)) (exec .pack { at' .pack 39 with b4 := 0x48 }) =
    some (0x90#8, 40, .sum) := by decide
theorem test_pack_drops_top_bit : seen (fun t => (t.b1, t.b0, t.i, t.phase))
    (exec .pack { at' .pack 15 with b1 := 0xFF, bit := true }) = some (0xFF#8, 0x00#8, 16, .diff) := by decide

/-- R140: past the last bit both go on; R110: the five bytes stay. -/
theorem test_diff_past_end_goes_on : seen (·.phase) (exec .diff (at' .diff 40)) = some .cmp := rfl
theorem test_pack_past_end_keeps_bytes : seen (fun t => (t.phase, t.b0, t.b4)) (exec .pack
    { holding 0x02 0x7C 0x01 0x11 0x90 with i := 40, bit := true }) = some (.diff, 0x02#8, 0x90#8) := rfl

/-- X22 and X26. -/
theorem test_sum_source_example : seen (fun t => (t.sum, t.phase)) (exec .sum (holding 0x02 0x7C 0x01 0x11 0x90)) =
    some (0x90#8, .chk) := by decide
theorem test_sum_two_carries : seen (·.sum) (exec .sum (holding 0xFF 0xFF 0xFF 0xFF 0xFC)) = some 0xFC#8 := by decide

/-- X22 and X23. -/
theorem test_chk_match : seen (fun t => (t.matched, t.phase)) (exec .chk { base with sum := 0x90, b4 := 0x90 }) =
    some (true, .hum) := by decide
theorem test_chk_mismatch : seen (fun t => (t.matched, t.phase, t.status))
    (exec .chk { base with sum := 0x90, b4 := 0x91 }) = some (false, .done, .checksumError) := by decide

/-- X30 and X39. -/
theorem test_hum_source_example : seen (fun t => (t.hum, t.phase)) (exec .hum (holding 0x02 0x7C 0x01 0x11 0x90)) =
    some (636#16, .tmp) := by decide
theorem test_hum_bit15 : seen (·.hum) (exec .hum (holding 0x80 0x00 0x00 0x80 0x00)) = some 0x8000#16 := by decide

/-- X31 (V2) and X36. -/
theorem test_tmp_negative : seen (fun t => (t.temp, t.phase)) (exec .tmp (holding 0x02 0x7C 0x81 0x11 0x10)) =
    some (0xFEEF#16, .ok) := by decide
theorem test_tmp_largest_negative : seen (·.temp) (exec .tmp (holding 0xFF 0xFF 0xFF 0xFF 0xFC)) =
    some 0x8001#16 := by decide

/-- X44, X45 and X46. -/
theorem test_ok_commits : seen (fun t => (t.status, t.phase)) (exec .ok { base with matched := true }) =
    some (.ok, .done) := by decide
theorem test_done_ignores_start : seen (fun t => (t.phase, t.done, t.busy))
    (step { at' .done 40 with inputs := [{ start := true }] }) = some (.idle, false, false) := by decide

/-- X47 and X48. -/
theorem test_reset_abandons_decode : seen (fun t => (t.phase, t.i, t.b0, t.status))
    (step { holding 0x02 0x7C 0x01 0x11 0x90 with phase := .pack, i := 20, inputs := [{ rst := true }] }) =
      some (.idle, 0, 0x00#8, .checksumError) := by decide
theorem test_reset_wins_over_start : seen (fun t => (t.phase, t.status))
    (step { base with status := .ok, inputs := [{ rst := true, start := true }] }) = some (.idle, .checksumError) := by
  decide

/-- R71 and R44: the stimulus P1 writes 41 entries, the last of them `CB[42] = 3742`. -/
theorem test_stimulus_last_entry :
    ((Machine.Stimulus.writes (.frame 160 78 120 0x02 0x7C 0x01 0x11 0x90)).map fun w => (w.index.val, w.value)).getLast? =
      some (42, 3742#32) := by decide

/-! ### Witnesses: the hypotheses of each statement can be met -/

theorem witness_wordsDecodeExactlyAsEncoded : decodePhase 10#4 = .ok .done ∧ 10#4 = encode .done ∧
    decodeByte 10#8 = .ok .done ∧ 11 ≤ (11#4).toNat ∧ 11 ≤ (15#4).toNat := by
  refine ⟨rfl, rfl, rfl, ?_⟩
  decide

theorem witness_frameStimulus : base.phase = .idle ∧ base.inputs = [] ∧ Memory.wf base.cb = true ∧
    (99#32 : Timestamp).toNat < 100 ∧ 100 ≤ (100#32 : Timestamp).toNat := by decide

theorem witness_stepRunsDecodedOperation : base.rst = false ∧ base.racing = false ∧
    decodePhase base.phaseWord = .ok .idle := ⟨rfl, rfl, rfl⟩

theorem witness_resetOverridesEverything : ({ at' .pack 20 with inputs := [{ rst := true }] } : State).rst = true := rfl

/-- A `start` in DONE, and a `start` with `rst` in IDLE. -/
theorem witness_startIgnoredOutsideIdle :
    ({ at' .done 40 with inputs := [{ start := true }] } : State).inputs = { start := true } :: [] ∧
    (at' .done 40).phase ≠ .idle ∧
    ({ base with inputs := [{ rst := true, start := true }] } : State).inputs = { rst := true, start := true } :: [] ∧
    ({ rst := true, start := true } : StepInput).rst = true := by decide

theorem witness_concurrentCaptureWrite :
    let s : State := { at' .init 40 with inputs := [{ writes := [⟨2, 5⟩] }] }
    s.rst = false ∧ s.phase ≠ .idle ∧ s.phase ≠ .done ∧ (⟨2, 5⟩ : HostWrite) ∈ s.input.writes ∧
      2 ≤ (⟨2, 5⟩ : HostWrite).index.val := by decide

theorem witness_hostWritesLandInIdle :
    let s : State := { base with inputs := [{ writes := [⟨42, 5⟩, ⟨0, 7⟩] }] }
    Memory.wf s.cb = true ∧ s.phase = .idle ∧ s.input.writes ≠ [] := by decide

theorem witness_idleAcceptsStartOnly :
    ({ base with inputs := [{ start := true }] } : State).input.start = true ∧ base.input.start = false := by decide

/-- The first and the last pulse; entries in order, equal, and out of order. -/
theorem witness_diffFormsPulseWidth :
    let s : State := { at' .diff 0 with cb := [(2, 160#32), (3, 238#32), (41, 9#32), (42, 8#32)] }
    let z : State := { s with i := 39 }
    s.readEntry (s.i.val + 2) = some 160#32 ∧ s.readEntry (s.i.val + 3) = some 238#32 ∧
      z.readEntry (z.i.val + 2) = some 9#32 ∧ z.readEntry (z.i.val + 3) = some 8#32 ∧
      (at' .diff 5).readEntry 7 = (at' .diff 5).readEntry 8 := by decide

theorem witness_monotonicBuffer :
    let s : State := { at' .diff 39 with cb := [(40, 160#32), (41, 238#32), (42, 316#32)] }
    MonotonicBuffer s.cb ∧ s.i.val ≤ 39 := by decide

theorem witness_cmpDecidesBit : 100 ≤ ({ base with w := 100 } : State).w.toNat ∧
    ({ base with w := 99 } : State).w.toNat ≤ 99 := by decide

/-- The first and the last bit, and the steps that come to PACK and to CMP, from legal pairs. -/
theorem witness_packShiftsBit : (1 : Fin 41).val = (at' .pack 0).i.val + 1 ∧ (40 : Fin 41).val = (at' .pack 39).i.val + 1 ∧
    seen (fun t => (t.phase, t.i)) (step (at' .cmp 39)) = some (.pack, 39) ∧
    seen (fun t => (t.phase, t.i)) (step (at' .diff 0)) = some (.cmp, 0) ∧
    PhaseIndexLegal (at' .cmp 39) ∧ PhaseIndexLegal (at' .diff 0) := by decide

theorem witness_bitPhasesStepOn : (at' .diff 40).i.val = 40 := rfl

theorem witness_chkComparesAndBranches : (holding 0 0 0 0 0).sum = (holding 0 0 0 0 0).b4 ∧
    (holding 0 0 0 0 1).sum ≠ (holding 0 0 0 0 1).b4 := by decide

theorem witness_humAssembles : seen (·.phase) (step (at' .chk 40)) = some .hum := by decide

/-- The sign flag clear and set, at the boundary, and a step that comes to TMP. -/
theorem witness_tmpConverts : (holding 0 0 127 0 0).b2.toNat < 128 ∧ 128 ≤ (holding 0 0 128 0 0).b2.toNat ∧
    seen (·.phase) (step (at' .hum 40)) = some .tmp := by decide

theorem witness_negativeZero : (holding 0 0 0x80 0 0).b2 = 0x80#8 ∧ (holding 0 0 0 0 0).b2 = 0x00#8 ∧
    (holding 0 0 0x80 0 0).b3 = 0x00#8 := by decide

theorem witness_readingDenotesTenths : (holding 0 0 0x7F 0 0).b2.getLsbD 7 = false ∧
    (holding 0 0 0x80 1 0).b2.getLsbD 7 = true ∧ (holding 0 0 0x80 1 0).b3 ≠ 0x00#8 ∧
    (holding 0 0 0x81 0 0).b2.getLsbD 7 = true ∧ (holding 0 0 0x81 0 0).b2 ≠ 0x80#8 := by decide

theorem witness_outputsFollowRegisters : PhaseIndexLegal (at' .diff 0) ∧ 2#6 ∈ (at' .diff 0).outputs.cbIndex ∧
    PhaseIndexLegal (at' .diff 39) ∧ 42#6 ∈ (at' .diff 39).outputs.cbIndex := by decide

theorem witness_operationsWriteOnly : (∃ t, exec .sum base = .next t) ∧ Reg.hum ∉ writtenBy .sum :=
  ⟨⟨_, rfl⟩, by decide⟩

/-- Two states that differ in what CHK does not read. -/
theorem witness_operationsReadOnly :
    (∀ r : Reg, r ∈ readBy .chk → base.regValue r = ({ base with w := 7, hum := 9, status := .ok } : State).regValue r) ∧
    base.cb = ({ base with w := 7, hum := 9, status := .ok } : State).cb ∧
    base.inputs = ({ base with w := 7, hum := 9, status := .ok } : State).inputs ∧ (∃ t, exec .chk base = .next t) := by
  refine ⟨?_, rfl, rfl, ⟨_, rfl⟩⟩
  intro r hr
  cases r <;> first | rfl | exact absurd hr (by decide)

theorem witness_noOperationStores : (∃ t, exec .diff (at' .diff 39) = .next t) ∧ (∃ t, step (at' .diff 39) = .next t) ∧
    (at' .diff 39).input.writes = [] := ⟨⟨_, rfl⟩, ⟨_, rfl⟩, rfl⟩

theorem witness_stepsUseOneInput : (∃ t, exec .pack base = .next t) ∧ (∃ t, step base = .next t) ∧
    ∃ t, step { base with inputs := [{ rst := true }] } = .next t := ⟨⟨_, rfl⟩, ⟨_, rfl⟩, ⟨_, rfl⟩⟩

/-- Another buffer that differs in entries 0 and 1 only. -/
theorem witness_onlyPayloadEntries :
    (∀ k : Nat, 2 ≤ k → k ≤ 42 → Memory.read [(0, 5#32), (1, 6#32)] k = Memory.read (at' .diff 0).cb k) ∧
    ∃ t, exec .diff (at' .diff 0) = .next t := by
  refine ⟨fun k h _ => ?_, ⟨_, rfl⟩⟩
  have h0 : ¬ 0 = k := by omega
  have h1 : ¬ 1 = k := by omega
  simp [Memory.read, h0, h1, at', base, State.reset]

/-- A step that makes `STATUS` Ok, steps that change `HUM` and `TEMP`, and a step from a state that holds Timeout. -/
theorem witness_resultsChange : seen (·.status) (step (at' .ok 40)) = some .ok ∧
    seen (fun t => decide (t.hum ≠ (at' .hum 40).hum)) (step (at' .hum 40)) = some true ∧
    seen (fun t => decide (t.temp ≠ (at' .tmp 40).temp)) (step (at' .tmp 40)) = some true ∧
    seen (·.status) (step { at' .idle 40 with status := .timeout }) = some .timeout := by decide

theorem witness_singleBitError : (holding 0x02 0x7C 0x01 0x11 0x90).b4.toNat =
    payloadSum (holding 0x02 0x7C 0x01 0x11 0x90) := by decide

/-- The first and the last byte. -/
theorem witness_eightPacks : (at' .pack 0).i.val = 8 * (0 : Fin 5).val ∧ (at' .pack 32).i.val = 8 * (4 : Fin 5).val ∧
    [true, false, false, true, false, false, false, true].length = 8 := by decide

/-- The state after a successful decode of the source's frame, with the next `start` at hand. -/
def decoded : State :=
  { holding 0x02 0x7C 0x01 0x11 0x90 with
    i := 40, sum := 0x90, matched := true, status := .ok, hum := 0x027C, temp := 0x0111, inputs := [{ start := true }] }

theorem witness_stepKeepsInvariant : BlockInvariant decoded ∧ ∃ t, step decoded = .next t :=
  ⟨by decide, ⟨_, rfl⟩⟩

/-- A step that the host leaves alone, one with `rst`, and one that the host races with. -/
theorem witness_everyStateHasNextState : decoded.racing = false ∧
    ({ decoded with inputs := [{ rst := true }] } : State).rst = true ∧
    ({ at' .pack 3 with inputs := [{ writes := [⟨42, 1⟩] }] } : State).rst = false ∧
    ({ at' .pack 3 with inputs := [{ writes := [⟨42, 1⟩] }] } : State).racing = true := by decide

/-- Each row of the successor table has a step. -/
theorem witness_successorTable :
    seen (·.phase) (step { base with inputs := [{ rst := true }] }) = some .idle ∧
    seen (·.phase) (step base) = some .idle ∧
    seen (·.phase) (step { base with inputs := [{ start := true }] }) = some .init ∧
    seen (·.phase) (step (at' .init 40)) = some .diff ∧ seen (·.phase) (step (at' .diff 39)) = some .cmp ∧
    seen (·.phase) (step (at' .cmp 39)) = some .pack ∧ seen (·.phase) (step (at' .pack 38)) = some .diff ∧
    seen (·.phase) (step (at' .pack 39)) = some .sum ∧ seen (·.phase) (step (at' .sum 40)) = some .chk ∧
    seen (·.phase) (step (at' .chk 40)) = some .hum ∧
    seen (·.phase) (step { at' .chk 40 with b4 := 1 }) = some .done ∧
    seen (·.phase) (step (at' .hum 40)) = some .tmp ∧ seen (·.phase) (step (at' .tmp 40)) = some .ok ∧
    seen (·.phase) (step (at' .ok 40)) = some .done ∧ seen (·.phase) (step (at' .done 40)) = some .idle := by decide

theorem witness_doneLastsOneState : (at' .done 40).done = true ∧ (at' .done 40).rst = false := by decide

theorem witness_idleKeepsLatestReading :
    let s : State := { decoded with inputs := [{ writes := [⟨2, 9⟩] }, {}, { start := true }] }
    s.phase = .idle ∧ ∀ x ∈ s.inputs.take 2, x.rst = false ∧ x.start = false := by decide

/-- An idle block whose host writes a buffer with `start`, repeats `start` too early, rewrites entry 0 meanwhile, and
asks again right after a mismatch. The buffer's last bit is 1 and all others 0, so that the checksum fails. -/
def requested : State :=
  { base with inputs :=
      { start := true, writes := [⟨42, 100⟩] } :: { start := true } :: { writes := [⟨0, 3⟩] } ::
        (List.replicate 122 {} ++ [{ start := true }]) }

/-- The same on a buffer that a frame of zeros fills, which matches. -/
def requestedZeros : State := { base with inputs := [{ start := true }] }

theorem requested_undisturbed (n : Nat) : ∀ x ∈ requested.inputs.tail.take n, StepInput.Undisturbing x := by
  intro x hx
  have h : x ∈ requested.inputs.tail := List.mem_of_mem_take hx
  simp only [requested, List.tail_cons, List.mem_cons, List.mem_append, List.mem_replicate, List.not_mem_nil,
    or_false] at h
  rcases h with rfl | rfl | ⟨-, rfl⟩ | rfl <;> decide

theorem requested_mismatch : frameMatches (Memory.writeAll requested.cb requested.input.writes) = false := by decide

theorem witness_transaction_mismatch : requested.phase = .idle ∧ requested.rst = false ∧ requested.start = true ∧
    frameMatches (Memory.writeAll requested.cb requested.input.writes) = false ∧
    (∀ x ∈ requested.inputs.tail.take (125 - 1), StepInput.Undisturbing x) :=
  ⟨rfl, rfl, rfl, requested_mismatch, requested_undisturbed _⟩

theorem witness_transaction_match : requestedZeros.phase = .idle ∧ requestedZeros.rst = false ∧
    requestedZeros.start = true ∧ frameMatches (Memory.writeAll requestedZeros.cb requestedZeros.input.writes) = true ∧
    (∀ x ∈ requestedZeros.inputs.tail.take (128 - 1), StepInput.Undisturbing x) := by decide

theorem witness_secondDecode : frameMatches (Memory.writeAll requested.cb requested.input.writes) = false ∧
    (∀ x ∈ requested.inputs.tail.take (2 * 125 - 1), StepInput.Undisturbing x) ∧
    ((requested.inputs.drop 125).headD {}).start = true :=
  ⟨requested_mismatch, requested_undisturbed _, rfl⟩

/-- Two idle blocks that differ in `STATUS`, `W` and entry 0. -/
theorem witness_dependsOnlyOnPayload :
    let s' : State := { requested with status := .ok, w := 9, cb := [(0, 77#32)] }
    s'.phase = .idle ∧ s'.rst = false ∧ s'.start = true ∧ requested.hum = s'.hum ∧ requested.temp = s'.temp ∧
    (∀ k : Nat, 2 ≤ k → k ≤ 42 → Memory.read requested.landWrites.cb k = Memory.read s'.landWrites.cb k) ∧
    (∀ x ∈ s'.inputs.tail.take (125 - 1), StepInput.Undisturbing x) := by
  refine ⟨rfl, rfl, rfl, rfl, rfl, fun k h _ => ?_, requested_undisturbed _⟩
  show Memory.read [(42, 100#32)] k = Memory.read [(0, 77#32), (42, 100#32)] k
  have h0 : ¬ 0 = k := by omega
  simp [Memory.read, h0]

theorem witness_populatedRequest :
    let s : State := { base with inputs := [{ start := true, writes := writesFrom 2 (List.replicate 41 0) }] }
    s.phase = .idle ∧ s.rst = false ∧ s.start = true ∧ Memory.wf s.cb = true ∧ Memory.wf [(5, 9#32)] = true ∧
    Populates s.input.writes ∧ frameMatches s.landWrites.cb = true ∧
    (∀ x ∈ s.inputs.tail.take (128 - 1), StepInput.Undisturbing x) := by decide

theorem witness_everyDecodeReachesDone : BlockInvariant { decoded with phase := .init, inputs := [] } ∧
    ({ decoded with phase := .init, inputs := [] } : State).phase ≠ .idle ∧
    Undisturbed 126 { decoded with phase := .init, inputs := [] } := by decide

end Sys2Proof.Tests
end

section
/-! PROOFS. The capture buffer is the host's: what a read of it and a step's buffer depend on, and spec/20_memory.md
R43. -/

namespace Sys2Proof.Machine

/-- The read primitive sees the buffer and nothing else of a state. -/
theorem State.readEntry_congr {s t : State} (h : t.cb = s.cb) (k : Nat) : t.readEntry k = s.readEntry k := by
  simp only [State.readEntry, h]

/-- A step leaves in the buffer what the host's writes made of it, whether it resets or executes. -/
theorem step_cb {s t : State} (h : step s = .next t) : t.cb = Memory.writeAll s.cb s.input.writes := by
  obtain ⟨-, rfl⟩ | ⟨-, -, rfl⟩ := step_next_cases h
  · rw [State.advance_cb, State.resetRegs_cb, State.landWrites_cb]
  · rw [State.advance_cb, State.afterOp_cb, State.landWrites_cb]

/-- Settles O27: an operation answers `afterOp`, which keeps the buffer, and a step changes it by the host's writes
only, of which there are none. -/
theorem noOperationStoresToBuffer : Obligations.NoOperationStoresToBuffer := by
  refine ⟨fun i s t h => State.readEntry_congr ?_, fun s t h hw => State.readEntry_congr ?_⟩
  · rw [eq_afterOp_of_exec h, State.afterOp_cb]
  · rw [step_cb h, hw, Memory.writeAll, List.foldl_nil]

end Sys2Proof.Machine
end

section
/-! PROOFS. The comparator decides the bit at the inclusive threshold (spec/41_comparator_bit_decoder.md R102). -/

namespace Sys2Proof.Machine

/-- The other side of `bitOfWidth_iff`: a width below the threshold is a 0. -/
theorem bitOfWidth_eq_false_iff (w : Timestamp) : bitOfWidth w = false ↔ w.toNat ≤ 99 := by
  rw [← Bool.not_eq_true, bitOfWidth_iff]
  omega

/-- Settles O14: CMP answers `afterOp`, which writes `bitOfWidth` of the width to `BIT`, and each of the two ranges of
the width fixes that value. -/
theorem cmpDecidesBitAtHundred : Obligations.CmpDecidesBitAtHundred := by
  refine ⟨rfl, fun s => ⟨fun h => ?_, fun h => ?_⟩⟩
  · rw [exec_eq_afterOp, State.afterOp, (bitOfWidth_iff s.w).2 h]
  · rw [exec_eq_afterOp, State.afterOp, (bitOfWidth_eq_false_iff s.w).2 h]

end Sys2Proof.Machine
end

section
/-! PROOFS. PACK shifts the bit into its byte and counts it (spec/42_bit_packer.md R110, R113), and the phases that lead
to it keep `I`. -/

namespace Sys2Proof.Machine

/-- PACK's byte with the truncation to 8 bits written out, as R113 gives it. -/
theorem shiftIn_eq_mod (b : Byte) (bit : Bool) :
    shiftIn b bit = BitVec.ofNat 8 ((2 * b.toNat + bit.toNat) % 256) := by
  rw [shiftIn_eq]
  exact BitVec.eq_of_toNat_eq (by simp)

/-- Only CMP goes to PACK and only DIFF to CMP (spec/40_sequence_control.md R91), and both leave `I` alone. -/
theorem State.afterOp_to_pack_or_cmp (s : State) (i : Instr) :
    ((s.afterOp i).phase = .pack → i = .cmp ∧ (s.afterOp i).i = s.i) ∧
    ((s.afterOp i).phase = .cmp → i = .diff ∧ (s.afterOp i).i = s.i) := by
  cases i with
  | cmp => exact ⟨fun _ => ⟨rfl, rfl⟩, nofun⟩
  | diff => exact ⟨nofun, fun _ => ⟨rfl, rfl⟩⟩
  | idle | pack | chk =>
    simp only [State.afterOp]
    split <;> exact ⟨nofun, nofun⟩
  | init | sum | hum | tmp | ok | done => exact ⟨nofun, nofun⟩

/-- A step that ends outside IDLE did not reset: it is its micro-operation between the landing of the host's writes and
the use of its inputs. -/
theorem eq_advance_afterOp_of_step {s t : State} (h : step s = .next t) (ht : t.phase ≠ .idle) :
    t = (s.landWrites.afterOp s.phase).advance := by
  obtain ⟨-, rfl⟩ | ⟨-, -, heq⟩ := step_next_cases h
  · exact absurd rfl ht
  · exact heq

/-- A step comes to PACK from CMP only and to CMP from DIFF only, with the same `I`. -/
theorem step_to_pack_or_cmp {s t : State} (h : step s = .next t) :
    (t.phase = .pack → s.phase = .cmp ∧ t.i = s.i) ∧ (t.phase = .cmp → s.phase = .diff ∧ t.i = s.i) := by
  refine ⟨fun ht => ?_, fun ht => ?_⟩ <;> obtain rfl := eq_advance_afterOp_of_step h (by simp [ht])
  · exact (State.afterOp_to_pack_or_cmp _ _).1 ht
  · exact (State.afterOp_to_pack_or_cmp _ _).2 ht

/-- Settles O15: PACK answers `afterOp`, whose bytes `packBit` gives and whose count is `I + 1`; and the legal pairs of
CMP and DIFF, from which alone a step comes to PACK and CMP, have `I` at most 39, which such a step keeps. -/
theorem packShiftsBitIntoItsByte : Obligations.PackShiftsBitIntoItsByte := by
  refine ⟨rfl, fun s k hk => ?_, fun s t => step_to_pack_or_cmp, fun s t hlegal h ht => ?_⟩
  · rw [exec_eq_afterOp]
    refine congrArg Host.Outcome.next (State.ext_fields ?_)
    simp [State.afterOp, nextIndex_of_lt hk, shiftIn_eq_mod]
  · obtain ⟨hpack, hcmp⟩ := step_to_pack_or_cmp h
    obtain ⟨-, hloop, -⟩ := hlegal
    obtain ⟨hs, hi⟩ | ⟨hs, hi⟩ := ht.imp hpack hcmp <;> rw [hi]
    · exact hloop (.inr (.inl hs))
    · exact hloop (.inl hs)

end Sys2Proof.Machine
end

section
/-! PROOFS. SUM adds the four payload bytes modulo 256 (spec/43_checksum_validator.md R120). -/

namespace Sys2Proof.Machine

/-- Settles O17: SUM answers `afterOp`, which writes `checksum` of the payload bytes to `SUM`, and `checksum_toNat`
gives its value. -/
theorem sumAddsPayloadModulo256 : Obligations.SumAddsPayloadModulo256 :=
  ⟨rfl, fun s => ⟨checksum s.b0 s.b1 s.b2 s.b3, exec_eq_afterOp .sum s, checksum_toNat s.b0 s.b1 s.b2 s.b3⟩⟩

end Sys2Proof.Machine
end

section
/-! PROOFS. HUM and TMP assemble the two readings from the frame (spec/44_value_extractor.md R130, R132), and what the
registers then denote as exact tenths (R131, R133). -/

namespace Sys2Proof.Machine

/-! ### The sign-magnitude field as a number -/

/-- With the sign flag clear the field is its two bytes in base 256. -/
theorem temperatureTenths_of_lt {b2 : Byte} (h : b2.toNat < 128) (b3 : Byte) :
    temperatureTenths b2 b3 = ((b2.toNat * 256 + b3.toNat : Nat) : Int) := by
  rw [temperatureTenths, if_neg (by omega), Nat.mod_eq_of_lt h]

/-- With the sign flag set the field is the negation of its 15 low bits. -/
theorem temperatureTenths_of_ge {b2 : Byte} (h : 128 ≤ b2.toNat) (b3 : Byte) :
    temperatureTenths b2 b3 = -(((b2.toNat - 128) * 256 + b3.toNat : Nat) : Int) := by
  have hmod : b2.toNat % 128 = b2.toNat - 128 := by omega
  rw [temperatureTenths, if_pos h, hmod]

/-- A magnitude has 15 bits, so the field stays one above the least 16-bit number. -/
theorem temperatureTenths_bounds (b2 b3 : Byte) :
    -32767 ≤ temperatureTenths b2 b3 ∧ temperatureTenths b2 b3 ≤ 32767 := by
  rcases Nat.lt_or_ge b2.toNat 128 with h | h
  · rw [temperatureTenths_of_lt h]
    omega
  · rw [temperatureTenths_of_ge h]
    omega

/-- With the sign flag set only negative zero (R134) is not negative. -/
theorem temperatureTenths_neg {b2 b3 : Byte} (h : 128 ≤ b2.toNat) (hne : b2 ≠ 0x80#8 ∨ b3 ≠ 0x00#8) :
    temperatureTenths b2 b3 < 0 := by
  have hmag : b2.toNat ≠ 128 ∨ b3.toNat ≠ 0 :=
    hne.imp (fun h2 h => h2 (BitVec.eq_of_toNat_eq h)) (fun h3 h => h3 (BitVec.eq_of_toNat_eq h))
  rw [temperatureTenths_of_ge h]
  omega

/-- `TEMP` is never `0x8000`, which reads -32768. -/
theorem signedTemperature_ne_min (b2 b3 : Byte) : signedTemperature b2 b3 ≠ 0x8000#16 := by
  intro h
  have hmin : temperatureTenths b2 b3 = -32768 := by
    rw [← signedTemperature_toInt, h]
    rfl
  obtain ⟨hlo, -⟩ := temperatureTenths_bounds b2 b3
  omega

/-! ### The quantities denoted -/

/-- The humidity that HUM makes the block show is the frame's. -/
theorem humidityPercent_afterOp_hum (s : State) :
    (s.afterOp .hum).humidityPercent = ((humidityTenths s.b0 s.b1 : Nat) : Rat) / 10 := by
  rw [State.humidityPercent, State.afterOp, rawHumidity_toNat]

/-- The temperature that TMP makes the block show is the frame's. -/
theorem temperatureCelsius_afterOp_tmp (s : State) :
    (s.afterOp .tmp).temperatureCelsius = (temperatureTenths s.b2 s.b3 : Rat) / 10 := by
  rw [State.temperatureCelsius, State.afterOp, signedTemperature_toInt]

/-- What a 16-bit register denotes in tenths is at most 6553.5. -/
theorem State.humidityPercent_bounds (t : State) : 0 ≤ t.humidityPercent ∧ t.humidityPercent ≤ 65535 / 10 := by
  have hle : (t.hum.toNat : Rat) ≤ 65535 := by exact_mod_cast Nat.le_of_lt_succ t.hum.isLt
  exact ⟨by rw [State.humidityPercent]; positivity, div_le_div_of_nonneg_right hle (by norm_num)⟩

/-- After TMP the temperature lies between -3276.7 and 3276.7. -/
theorem temperatureCelsius_afterOp_tmp_bounds (s : State) :
    -(32767 / 10) ≤ (s.afterOp .tmp).temperatureCelsius ∧ (s.afterOp .tmp).temperatureCelsius ≤ 32767 / 10 := by
  obtain ⟨hlo, hhi⟩ := temperatureTenths_bounds s.b2 s.b3
  have hlo' : (-32767 : Rat) ≤ temperatureTenths s.b2 s.b3 := by exact_mod_cast hlo
  have hhi' : (temperatureTenths s.b2 s.b3 : Rat) ≤ 32767 := by exact_mod_cast hhi
  rw [temperatureCelsius_afterOp_tmp]
  constructor <;> linarith

/-- Settles O23: HUM and TMP answer `afterOp`, whose registers denote the tenths of the frame; the temperature splits on
the sign flag, which is whether `B2` is 128 or more. -/
theorem readingDenotesExactTenths : Obligations.ReadingDenotesExactTenths := by
  refine ⟨fun s => ⟨_, exec_eq_afterOp .hum s, rfl, humidityPercent_afterOp_hum s, State.humidityPercent_bounds _⟩,
    fun s => ?_⟩
  obtain ⟨hlo, hhi⟩ := temperatureCelsius_afterOp_tmp_bounds s
  refine ⟨_, exec_eq_afterOp .tmp s, rfl, hlo, hhi, fun hclear => ?_, fun hset hne => ?_⟩ <;>
    rw [temperatureCelsius_afterOp_tmp]
  · have hlt : s.b2.toNat < 128 := by
      have := (signFlag_iff s.b2).not.1 (Bool.eq_false_iff.1 hclear)
      omega
    rw [temperatureTenths_of_lt hlt, Int.cast_natCast]
    exact ⟨by positivity, rfl⟩
  · have hge : 128 ≤ s.b2.toNat := (signFlag_iff s.b2).1 hset
    have hneg : (temperatureTenths s.b2 s.b3 : Rat) < 0 := by exact_mod_cast temperatureTenths_neg hge hne
    refine ⟨div_neg_of_neg_of_pos hneg (by norm_num), ?_⟩
    rw [temperatureTenths_of_ge hge, Int.cast_neg, Int.cast_natCast, neg_div]

/-! ### How a step comes to HUM and to TMP -/

/-- Only a CHK that found a match goes to HUM, and only HUM goes to TMP (spec/40_sequence_control.md R91). -/
theorem State.afterOp_to_hum_or_tmp (s : State) (i : Instr) :
    ((s.afterOp i).phase = .hum → i = .chk ∧ s.sum = s.b4) ∧ ((s.afterOp i).phase = .tmp → i = .hum) := by
  cases i with
  | hum => exact ⟨nofun, fun _ => rfl⟩
  | chk =>
    simp only [State.afterOp, checksumMatches, decide_eq_true_eq]
    split
    · exact ⟨fun _ => ⟨trivial, ‹_›⟩, nofun⟩
    · exact ⟨nofun, nofun⟩
  | idle | pack =>
    simp only [State.afterOp]
    split <;> exact ⟨nofun, nofun⟩
  | init | diff | cmp | sum | tmp | ok | done => exact ⟨nofun, nofun⟩

/-- A step comes to HUM from a CHK that found a match only. -/
theorem step_to_hum {s t : State} (h : step s = .next t) (ht : t.phase = .hum) : s.phase = .chk ∧ s.sum = s.b4 := by
  obtain rfl := eq_advance_afterOp_of_step h (by simp [ht])
  exact (State.afterOp_to_hum_or_tmp s.landWrites s.phase).1 ht

/-- A step comes to TMP from HUM only. -/
theorem step_to_tmp {s t : State} (h : step s = .next t) (ht : t.phase = .tmp) : s.phase = .hum := by
  obtain rfl := eq_advance_afterOp_of_step h (by simp [ht])
  exact (State.afterOp_to_hum_or_tmp s.landWrites s.phase).2 ht

/-- Settles O19: HUM answers `afterOp`, which writes `rawHumidity` of the two bytes, and `step_to_hum` says where a step
to HUM comes from. -/
theorem humAssemblesHighByteFirst : Obligations.HumAssemblesHighByteFirst :=
  ⟨rfl, fun s => ⟨_, exec_eq_afterOp .hum s, rawHumidity_toNat s.b0 s.b1⟩, fun _ _ => step_to_hum⟩

/-- Settles O20: TMP answers `afterOp`, which writes `signedTemperature`; its signed value is the sign-magnitude field,
whose two halves `temperatureTenths_of_lt` and `temperatureTenths_of_ge` give. -/
theorem tmpConvertsSignMagnitude : Obligations.TmpConvertsSignMagnitude := by
  refine ⟨rfl, fun s => ⟨_, exec_eq_afterOp .tmp s, signedTemperature_ne_min s.b2 s.b3, fun hlt => ?_, fun hge => ?_⟩,
    fun _ _ => step_to_tmp, fun _ _ => step_to_hum⟩
  · rw [signedTemperature_toInt, temperatureTenths_of_lt hlt]
  · rw [signedTemperature_toInt, temperatureTenths_of_ge hge]

end Sys2Proof.Machine
end

section
/-! PROOFS. A whole decode transaction, from the accepting IDLE step to the DONE step: what it computes
(spec/40_sequence_control.md R94), in how many steps and through which operations (R92). -/

namespace Sys2Proof.Machine

/-! ### What the transaction computes -/

/-- The steps from INIT to DONE: INIT, the loop of 40 bits, and the tail that the verdict selects. -/
def decodeLength (matched : Bool) : Nat := 1 + (3 * 40 + if matched then 6 else 3)

/-- A transaction is the accepting step and the steps from INIT to DONE (spec/40_sequence_control.md R92). -/
theorem eq_decodeLength_succ {matched : Bool} {n : Nat} (hn : n = if matched then 128 else 125) :
    ∃ k, k = decodeLength matched ∧ n = k + 1 := by
  cases matched <;> exact ⟨_, rfl, hn⟩

/-- INIT, the loop and the tail on a stable buffer. -/
theorem stableRun_decode {s : State} (h : s.phase = .init) :
    stableRun (decodeLength (frameMatches s.cb)) s = some (s.afterDecode s.cb) := by
  rw [decodeLength, stableRun_add (stableRun_init h), stableRun_add (stableRun_loop s 40 (by omega)),
    stableRun_verdict]

/-- The state after the step that accepts `start`: INIT comes next, and the host's writes have landed. -/
def State.accepted (s : State) : State :=
  { s with phase := .init, cb := Memory.writeAll s.cb s.input.writes, inputs := s.inputs.tail }

@[simp] theorem State.accepted_cb (s : State) : s.accepted.cb = Memory.writeAll s.cb s.input.writes := rfl

/-- The accepting step and then an undisturbed run do what the run on a stable buffer does. -/
theorem steps_accepted {s t : State} (hp : s.phase = .idle) (hr : s.rst = false) (hs : s.start = true) {k : Nat}
    (hu : Undisturbed k s.accepted) (run : stableRun k s.accepted = some t) :
    steps (k + 1) s = .next { t with cb := landed (k + 1) s, inputs := s.inputs.drop (k + 1) } := by
  rw [steps, step_accepts hp hr hs]
  exact (steps_of_stableRun k _ _ _ run rfl (fun _ _ _ => rfl) hu).trans
    (by rw [landed_succ k (t := s.accepted) rfl rfl, drop_succ k (t := s.accepted) rfl])

/-- The run from INIT to DONE after the accepting step, with its length `k`: the transaction's without that step. -/
theorem exists_stableRun_accepted {s : State} {m : Memory} {n : Nat} (hm : m = Memory.writeAll s.cb s.input.writes)
    (hn : n = if frameMatches m then 128 else 125) :
    ∃ k, n = k + 1 ∧ k = decodeLength (frameMatches m) ∧ stableRun k s.accepted = some (s.accepted.afterDecode m) := by
  obtain ⟨k, hk, rfl⟩ := eq_decodeLength_succ hn
  refine ⟨k, rfl, hk, ?_⟩
  rw [hk, hm, ← State.accepted_cb]
  exact stableRun_decode rfl

/-- Settles O40: the accepting step goes to INIT with the host's writes landed, and from there the run on a stable
buffer, which an undisturbed run of steps follows, computes `afterDecode`. -/
theorem transactionComputesDecode : Obligations.TransactionComputesDecode := by
  intro s m n hp hr hs hm hn hu
  obtain ⟨k, rfl, -, run⟩ := exists_stableRun_accepted hm hn
  exact (steps_accepted hp hr hs hu run).trans rfl

/-! ### The operations it executes -/

/-- The micro-operations that `n` steps of a run on a stable buffer execute. -/
def stableOps : Nat → State → List Instr
  | 0, _ => []
  | n + 1, s => s.phase :: stableOps n (s.afterOp s.phase)

/-- The first micro-operation of a run on a stable buffer, and the rest of the run. -/
theorem stableRun_succ {n : Nat} {s t : State} (h : stableRun (n + 1) s = some t) :
    s.phase ≠ .idle ∧ stableRun n (s.afterOp s.phase) = some t := by
  rw [stableRun] at h
  split at h
  · cases h
  · rw [exec_eq_afterOp] at h
    exact ⟨‹_›, h⟩

/-- The operations of two runs one after the other. -/
theorem stableOps_add {m n : Nat} {s t : State} (h : stableRun m s = some t) :
    stableOps (m + n) s = stableOps m s ++ stableOps n t := by
  induction m generalizing s with
  | zero =>
    rw [stableRun, Option.some.injEq] at h
    rw [h, Nat.zero_add, stableOps, List.nil_append]
  | succ m ih =>
    rw [Nat.add_right_comm, stableOps, stableOps, ih (stableRun_succ h).2, List.cons_append]

/-- One undisturbed step does what the micro-operation does on the stable buffer, and uses up its input. -/
theorem step_of_stable {n : Nat} {s u : State} (hid : u.phase ≠ .idle)
    (hs : s = { u with cb := s.cb, inputs := s.inputs }) (hp : SamePayload s.cb u.cb) (hu : Undisturbed (n + 1) s) :
    step s = .next { u.afterOp u.phase with cb := s.landWrites.cb, inputs := s.inputs.tail } := by
  obtain ⟨hr, hc, hw⟩ := quiet_of_undisturbed hu
  have hl : s.landWrites = { u with cb := s.landWrites.cb, inputs := s.inputs } := by
    conv_lhs => rw [State.landWrites, hs]
    rfl
  have hph : s.phase = u.phase := by rw [hs]
  refine step_of_exec (u := { u.afterOp u.phase with cb := s.landWrites.cb, inputs := s.inputs }) hr hc ?_
  rw [hl, hph]
  exact exec_with_host hid _ _ (samePayload_land hw hp) (exec_eq_afterOp _ _)

/-- An undisturbed run of steps executes the operations of the run on a stable buffer. -/
theorem visited_of_stableRun (n : Nat) : ∀ (s u t : State), stableRun n u = some t →
    s = { u with cb := s.cb, inputs := s.inputs } → SamePayload s.cb u.cb → Undisturbed n s →
    visited n s = stableOps n u := by
  induction n with
  | zero => intros; rfl
  | succ n ih =>
    intro s u t h hs hp hu
    obtain ⟨hid, hrest⟩ := stableRun_succ h
    obtain ⟨-, -, hw⟩ := quiet_of_undisturbed hu
    have hph : s.phase = u.phase := by rw [hs]
    rw [visited, step_of_stable hid hs hp hu, stableOps, hph]
    refine congrArg (u.phase :: ·) (ih _ _ t hrest rfl ?_ (undisturbed_tail hu rfl))
    rw [State.afterOp_cb]
    exact samePayload_land hw hp

/-- One pass of the loop executes BITSTEP. -/
theorem stableOps_bitStep (s : State) (k : Nat) (hk : k < 40) :
    stableOps 3 (loopState s k (by omega)) = bitStepOps := by
  have hphase : (loopState s k (by omega)).phase = .diff := if_neg (by omega)
  simp only [stableOps, hphase]
  rfl

/-- `k` passes of the loop execute `k` times BITSTEP. -/
theorem stableOps_loop (s : State) : ∀ k (_ : k < 41),
    stableOps (3 * k) (loopState s 0 (by omega)) = (List.replicate k bitStepOps).flatten
  | 0, _ => rfl
  | k + 1, hk => by
    rw [show 3 * (k + 1) = 3 * k + 3 by omega, stableOps_add (stableRun_loop s k (by omega)),
      stableOps_loop s k (by omega), stableOps_bitStep s k (by omega), List.replicate_succ', List.flatten_concat]

/-- From SUM on, the tail is the one that the verdict of CHK selects. -/
theorem stableOps_tail {u : State} {v : Bool} (hp : u.phase = .sum)
    (hv : checksumMatches (checksum u.b0 u.b1 u.b2 u.b3) u.b4 = v) :
    stableOps (if v then 6 else 3) u = .sum :: .chk :: if v then [.hum, .tmp, .ok, .done] else [.done] := by
  cases v <;> simp [stableOps, State.afterOp, hp, hv]

/-- The bytes after the loop have the verdict of R94. -/
theorem checksumMatches_loopState (s : State) :
    checksumMatches (checksum (loopState s 40 (by omega)).b0 (loopState s 40 (by omega)).b1
      (loopState s 40 (by omega)).b2 (loopState s 40 (by omega)).b3) (loopState s 40 (by omega)).b4 =
        frameMatches s.cb := by
  simp only [loopState, bytesAfter_forty]
  rw [← checksumMatches_frame, ← checksum_frame]
  rfl

/-- From INIT to DONE a run on a stable buffer executes DECODE (spec/30_encoding.md R72). -/
theorem stableOps_decode {s : State} (h : s.phase = .init) :
    stableOps (decodeLength (frameMatches s.cb)) s = decodeOps (frameMatches s.cb) := by
  rw [decodeLength, stableOps_add (stableRun_init h), stableOps_add (stableRun_loop s 40 (by omega)),
    stableOps_loop s 40 (by omega), stableOps_tail rfl (checksumMatches_loopState s), stableOps, stableOps, h,
    decodeOps]
  rfl

/-- The accepting step executes IDLE, and the undisturbed run after it what the run on a stable buffer executes. -/
theorem visited_accepted {s t : State} (hp : s.phase = .idle) (hr : s.rst = false) (hs : s.start = true) {k : Nat}
    (hu : Undisturbed k s.accepted) (run : stableRun k s.accepted = some t) :
    visited (k + 1) s = .idle :: stableOps k s.accepted := by
  rw [visited, step_accepts hp hr hs, hp]
  exact congrArg (Instr.idle :: ·) (visited_of_stableRun k _ _ _ run rfl (fun _ _ _ => rfl) hu)

/-- Settles O41: the accepting step executes IDLE, and the undisturbed run after it the operations of the run on a
stable buffer, which are DECODE. -/
theorem transactionExecutesDecodeSequence : Obligations.TransactionExecutesDecodeSequence := by
  intro s m n hp hr hs hm hn hu
  obtain ⟨k, rfl, hk, run⟩ := exists_stableRun_accepted hm hn
  rw [visited_accepted hp hr hs (k := k) hu run, hk, hm, ← State.accepted_cb, stableOps_decode rfl]
  rfl

end Sys2Proof.Machine
end

section
/-! PROOFS. What follows from `transactionComputesDecode`: the verdict and the extraction
(spec/43_checksum_validator.md section 3), and what the result depends on (spec/40_sequence_control.md R95). -/

namespace Sys2Proof.Machine

/-! ### The verdict and the extraction -/

theorem State.afterDecode_status (s : State) (m : Memory) :
    (s.afterDecode m).status = if frameMatches m then .ok else .checksumError := by
  simp only [State.afterDecode]
theorem State.afterDecode_hum (s : State) (m : Memory) :
    (s.afterDecode m).hum =
      if frameMatches m then rawHumidity (s.afterDecode m).b0 (s.afterDecode m).b1 else s.hum := by
  simp only [State.afterDecode, rawHumidity_frame]
theorem State.afterDecode_temp (s : State) (m : Memory) :
    (s.afterDecode m).temp =
      if frameMatches m then signedTemperature (s.afterDecode m).b2 (s.afterDecode m).b3 else s.temp := by
  simp only [State.afterDecode, signedTemperature_frame]

/-- The frame held after a transaction has the verdict of R94. -/
theorem afterDecode_verdict_iff (s : State) (m : Memory) :
    (s.afterDecode m).b4.toNat = payloadSum (s.afterDecode m) ↔ frameMatches m = true := by
  rw [← checksumMatches_frame, ← checksum_frame, checksumMatches, decide_eq_true_eq, ← BitVec.toNat_inj,
    checksum_toNat, eq_comm]
  rfl

/-- On a match the result registers are the extraction of the frame held. -/
theorem afterDecode_of_match (s : State) {m : Memory} (h : frameMatches m = true) :
    (s.afterDecode m).status = .ok ∧
    (s.afterDecode m).hum.toNat = humidityTenths (s.afterDecode m).b0 (s.afterDecode m).b1 ∧
    (s.afterDecode m).temp.toInt = temperatureTenths (s.afterDecode m).b2 (s.afterDecode m).b3 := by
  rw [State.afterDecode_status, State.afterDecode_hum, State.afterDecode_temp, if_pos h, if_pos h, if_pos h]
  exact ⟨rfl, rawHumidity_toNat _ _, signedTemperature_toInt _ _⟩

/-- On a mismatch the result registers hold the old values. -/
theorem afterDecode_of_mismatch (s : State) {m : Memory} (h : frameMatches m = false) :
    (s.afterDecode m).status = .checksumError ∧ (s.afterDecode m).hum = s.hum ∧ (s.afterDecode m).temp = s.temp := by
  rw [State.afterDecode_status, State.afterDecode_hum, State.afterDecode_temp, h]
  exact ⟨rfl, rfl, rfl⟩

/-- Settles O42: the state after the transaction is `afterDecode`, whose status, humidity and temperature the verdict
selects. -/
theorem okExactlyOnChecksumMatch : Obligations.OkExactlyOnChecksumMatch := by
  intro s m n hp hr hs hm hn hu
  refine ⟨_, transactionComputesDecode s m n hp hr hs hm hn hu, fun h => ?_, fun h => ?_⟩ <;> dsimp only at h ⊢
  · exact afterDecode_of_match s ((afterDecode_verdict_iff s m).1 h)
  · exact afterDecode_of_mismatch s (Bool.eq_false_iff.2 fun hm => h ((afterDecode_verdict_iff s m).2 hm))

/-! ### The result depends on the payload -/

/-- The payload fixes every pulse width of the frame. -/
theorem pulseWidth_congr {m m' : Memory} (h : SamePayload m m') {i : Nat} (hi : i < 40) :
    pulseWidth m i = pulseWidth m' i := by
  rw [pulseWidth, pulseWidth, h (i + 2) (by omega) (by omega), h (i + 3) (by omega) (by omega)]

/-- The payload fixes every bit of the frame. -/
theorem pulseBit_congr {m m' : Memory} (h : SamePayload m m') {i : Nat} (hi : i < 40) :
    pulseBit m i = pulseBit m' i := by
  rw [pulseBit, pulseBit, pulseWidth_congr h hi]

/-- The payload fixes every byte of the frame. -/
theorem frameByte_congr {m m' : Memory} (h : SamePayload m m') {j : Nat} (hj : j < 5) :
    frameByte m j = frameByte m' j := by
  refine congrArg List.sum (List.map_congr_left fun k hk => ?_)
  rw [pulseBit_congr h (by have := List.mem_range.1 hk; omega)]

/-- The payload fixes the verdict. -/
theorem frameMatches_congr {m m' : Memory} (h : SamePayload m m') : frameMatches m = frameMatches m' := by
  have hbyte : ∀ j < 5, frameByte m j = frameByte m' j := fun j hj => frameByte_congr h hj
  rw [frameMatches, frameMatches, decide_eq_decide]
  simp [frameSum, hbyte]

/-- The registers do not show the buffer and the inputs. -/
theorem State.regValue_with_host (s : State) (m : Memory) (l : List StepInput) (r : Reg) :
    State.regValue { s with cb := m, inputs := l } r = s.regValue r := by
  cases r <;> rfl

/-- The registers after a decode depend on the payload and, on a mismatch, on the old `HUM` and `TEMP`. -/
theorem regValue_afterDecode_congr {s s' : State} {m m' : Memory} (h : SamePayload m m')
    (hold : frameMatches m = false → s.hum = s'.hum ∧ s.temp = s'.temp) (r : Reg) :
    (s.afterDecode m).regValue r = (s'.afterDecode m').regValue r := by
  have hbyte : ∀ j < 5, frameByte m' j = frameByte m j := fun j hj => (frameByte_congr h hj).symm
  have hmatch : frameMatches m' = frameMatches m := (frameMatches_congr h).symm
  have hsum : frameSum m' = frameSum m := by simp [frameSum, hbyte]
  cases r with
  | w => exact congrArg (fun v => (BitVec.ofNat 32 v).toNat) (pulseWidth_congr h (by decide))
  | bit => exact congrArg Bool.toNat (pulseBit_congr h (by decide))
  | hum | temp =>
    cases hm : frameMatches m with
    | true => simp [State.regValue, State.afterDecode, hmatch, hm, frameHumidity, frameTemperature, hbyte]
    | false => simp [State.regValue, State.afterDecode, hmatch, hm, hold hm]
  | _ => simp [State.regValue, State.afterDecode, State.phaseWord, hmatch, hsum, hbyte]

/-- The same after a transaction, which also leaves its host's buffer and inputs behind. -/
theorem regValue_transaction_congr {s s' : State} {m m' : Memory} (h : SamePayload m m')
    (hold : frameMatches m = false → s.hum = s'.hum ∧ s.temp = s'.temp) (c c' : Memory) (l l' : List StepInput)
    (r : Reg) :
    State.regValue { s.afterDecode m with cb := c, inputs := l } r =
      State.regValue { s'.afterDecode m' with cb := c', inputs := l' } r :=
  (State.regValue_with_host _ c l r).trans
    ((regValue_afterDecode_congr h hold r).trans (State.regValue_with_host _ c' l' r).symm)

/-- Settles O44: both transactions compute `afterDecode` of buffers with the same payload, and so take equally many
steps. -/
theorem decodeDependsOnlyOnPayloadEntries : Obligations.DecodeDependsOnlyOnPayloadEntries := by
  intro s s' n hp hp' hr hr' hs hs' hpay hn hu hu' hold
  have hn' : n = if frameMatches s'.landWrites.cb then 128 else 125 := by rw [hn, frameMatches_congr hpay]
  have run := transactionComputesDecode s _ n hp hr hs rfl hn hu
  have run' := transactionComputesDecode s' _ n hp' hr' hs' rfl hn' hu'
  exact ⟨_, _, run, run', regValue_transaction_congr hpay hold _ _ _ _⟩

/-! ### Populating the buffer -/

/-- The last write to an entry hides what it held. -/
theorem foldl_write_congr {k : Nat} : ∀ {ws : List HostWrite}, (∃ w ∈ ws, w.index.val = k) → ∀ a b : Timestamp,
    ws.foldl (fun acc w => if w.index.val = k then w.value else acc) a =
      ws.foldl (fun acc w => if w.index.val = k then w.value else acc) b
  | [], h, _, _ => by simp at h
  | w :: ws, h, a, b => by
    by_cases hw : w.index.val = k
    · simp only [List.foldl_cons, hw, if_true]
    · have hrest : ∃ x ∈ ws, x.index.val = k := by simpa [hw] using h
      simp only [List.foldl_cons, hw, if_false]
      exact foldl_write_congr hrest a b

/-- Writes to all of `CB[2..42]` give the same payload whatever the buffer held. -/
theorem samePayload_of_populates {ws : List HostWrite} (h : Populates ws) {m m' : Memory} (hm : Memory.wf m = true)
    (hm' : Memory.wf m' = true) : SamePayload (Memory.writeAll m ws) (Memory.writeAll m' ws) := by
  intro k h2 h42
  obtain ⟨w, hw, hk⟩ := h ⟨k, by omega⟩ h2
  rw [Memory.read_writeAll k ws hm, Memory.read_writeAll k ws hm']
  exact foldl_write_congr ⟨w, hw, congrArg Fin.val hk⟩ _ _

/-- Settles O45: the request gives both buffers the same payload, on which alone the registers depend. -/
theorem populatedRequestHidesOldBuffer : Obligations.PopulatedRequestHidesOldBuffer := by
  intro s cb n hp hr hs hwf hwf' hpop hn hu
  exact decodeDependsOnlyOnPayloadEntries s { s with cb := cb } n hp hp hr hr hs hs
    (samePayload_of_populates hpop hwf hwf') hn hu hu (fun _ => ⟨rfl, rfl⟩)

/-! ### Decoding twice -/

/-- Undisturbing inputs keep the payload. -/
theorem samePayload_foldl : ∀ {l : List StepInput}, (∀ x ∈ l, StepInput.Undisturbing x) → ∀ m : Memory,
    SamePayload (l.foldl (fun m x => Memory.writeAll m x.writes) m) m
  | [], _, _ => fun _ _ _ => rfl
  | x :: l, h, m => by
    intro k h2 h42
    obtain ⟨⟨-, hx⟩, hl⟩ := List.forall_mem_cons.1 h
    rw [List.foldl_cons, samePayload_foldl hl _ k h2 h42, Memory.read_writeAll_of_ne]
    intro w hw
    have := hx w hw
    omega

/-- The payload after a transaction is that of its start. -/
theorem samePayload_landed {s : State} {k : Nat} (hu : Undisturbed k s.accepted) :
    SamePayload (landed (k + 1) s) s.accepted.cb := by
  rw [landed_succ k (t := s.accepted) rfl rfl]
  exact samePayload_foldl hu _

/-- What a transaction leaves for the next one: it is idle, the host's writes are in the buffer, `n` inputs are used
up, and on a mismatch `HUM` and `TEMP` are the old ones. -/
theorem exists_transaction {s : State} {m : Memory} {n : Nat} (hp : s.phase = .idle) (hr : s.rst = false)
    (hs : s.start = true) (hm : m = Memory.writeAll s.cb s.input.writes)
    (hn : n = if frameMatches m then 128 else 125) (hu : ∀ x ∈ s.inputs.tail.take (n - 1), StepInput.Undisturbing x) :
    ∃ t, steps n s = .next t ∧ t.phase = .idle ∧ t.cb = landed n s ∧ t.inputs = s.inputs.drop n ∧
      (frameMatches m = false → t.hum = s.hum ∧ t.temp = s.temp) := by
  refine ⟨_, transactionComputesDecode s m n hp hr hs hm hn hu, rfl, rfl, rfl, fun h => ?_⟩
  dsimp only
  exact (afterDecode_of_mismatch s h).2

/-- Undisturbed for `k + l` steps is undisturbed for `l` after `k` inputs are used up. -/
theorem undisturbed_of_drop {s t : State} {k l : Nat} (h : Undisturbed (k + l) s) (ht : t.inputs = s.inputs.drop k) :
    Undisturbed l t := by
  intro x hx
  rw [ht, List.take_drop] at hx
  exact h x (List.mem_of_mem_drop hx)

/-- Settles O43: the first transaction leaves the payload and, on a mismatch, `HUM` and `TEMP` as they were, and on
nothing else do the registers after the second depend. -/
theorem secondDecodeChangesNothing : Obligations.SecondDecodeChangesNothing := by
  intro s n hp hr hs hn hu hstart
  obtain ⟨k, -, rfl⟩ := eq_decodeLength_succ hn
  have hu : Undisturbed (k + (k + 1)) s.accepted := by
    rwa [show 2 * (k + 1) - 1 = k + (k + 1) by omega] at hu
  have hu₁ : Undisturbed k s.accepted := fun x hx => hu x ((List.take_prefix_take_left (by omega)).subset hx)
  obtain ⟨t, ht, hpt, hcb, hin, hold⟩ := exists_transaction hp hr hs rfl hn hu₁
  have hu₂ : Undisturbed (k + 1) t := undisturbed_of_drop hu (hin.trans (drop_succ k rfl))
  obtain ⟨hrt, -, hwt⟩ := quiet_of_undisturbed hu₂
  have hst : t.start = true := by rwa [State.start, State.input, hin]
  have hpay : SamePayload t.landWrites.cb s.landWrites.cb :=
    samePayload_land hwt (hcb ▸ samePayload_landed hu₁)
  have hmatch := frameMatches_congr hpay
  have hnt : k + 1 = if frameMatches t.landWrites.cb then 128 else 125 := by rw [hmatch]; exact hn
  obtain ⟨u, t', hu', ht', hregs⟩ := decodeDependsOnlyOnPayloadEntries t s (k + 1) hpt hp hrt hr hst hs hpay hnt
    (undisturbed_tail (t := t.accepted) hu₂ rfl) hu₁ (fun hm => hold (hmatch.symm.trans hm))
  obtain rfl : t = t' := Host.Outcome.next.inj (ht.symm.trans ht')
  exact ⟨t, u, ht, hu', hregs⟩

end Sys2Proof.Machine
end

section
/-! PROOFS. A frame carried as pulse widths (spec/30_encoding.md R61, R62, R71) comes back from the decode: the
stimulus' writes read back, the widths are the differences of its timestamps, and the widths tell the bits. -/

namespace Sys2Proof.Machine

/-! ### The writes of a stimulus -/

theorem le_index_of_mem_writesFrom : ∀ {vs : List Timestamp} {k : Nat} {w : HostWrite}, w ∈ writesFrom k vs →
    k ≤ w.index.val
  | [], _, _, h => by simp [writesFrom] at h
  | v :: vs, k, w, h => by
    rw [writesFrom] at h
    split at h
    · obtain rfl | h := List.mem_cons.1 h
      · exact Nat.le_refl k
      · exact Nat.le_of_succ_le (le_index_of_mem_writesFrom h)
    · simp at h

/-- Successive entries that fit into the buffer read back. -/
theorem Memory.read_writeAll_writesFrom : ∀ {vs : List Timestamp} {k : Nat} {m : Memory}, Memory.wf m = true →
    k + vs.length ≤ 43 → ∀ (j : Nat) (hj : j < vs.length),
      Memory.read (Memory.writeAll m (writesFrom k vs)) (k + j) = vs[j]
  | v :: vs, k, m, hm, hlen, j, hj => by
    rw [List.length_cons] at hlen
    have hk : k < 43 := by omega
    have head : Memory.writeAll m (writesFrom k (v :: vs)) =
        Memory.writeAll (Memory.write m k v) (writesFrom (k + 1) vs) := by
      rw [writesFrom, dif_pos hk]
      rfl
    rw [head]
    cases j with
    | zero =>
      rw [List.getElem_cons_zero]
      refine (Memory.read_writeAll_of_ne (fun w hw => ?_) _).trans (Memory.read_write_same k v hm)
      have := le_index_of_mem_writesFrom hw
      omega
    | succ j =>
      rw [show k + (j + 1) = k + 1 + j by omega, List.getElem_cons_succ]
      exact Memory.read_writeAll_writesFrom (Memory.wf_write ⟨k, hk⟩ v hm) (by omega) j (by simpa using hj)

/-! ### The timestamps of a list of widths -/

@[simp] theorem length_timestampsOf : ∀ (base : Timestamp) (ws : List Timestamp),
    (timestampsOf base ws).length = ws.length + 1
  | _, [] => rfl
  | base, w :: ws => by rw [timestampsOf, List.length_cons, length_timestampsOf, List.length_cons]

theorem timestampsOf_zero (base : Timestamp) (ws : List Timestamp) : (timestampsOf base ws)[0]'(by simp) = base := by
  cases ws <;> rfl

/-- Each width separates two successive timestamps. -/
theorem timestampsOf_succ : ∀ (base : Timestamp) (ws : List Timestamp) (i : Nat) (hi : i < ws.length),
    (timestampsOf base ws)[i + 1]'(by simpa using hi) = (timestampsOf base ws)[i]'(by simp; omega) + ws[i]
  | base, w :: ws, 0, _ => timestampsOf_zero (base + w) ws
  | base, w :: ws, i + 1, hi => timestampsOf_succ (base + w) ws i (by simpa using hi)

/-- Bit `i` of a buffer that holds a list of widths is the comparison of width `i`, wherever the timestamps begin. -/
theorem pulseBit_widths {m : Memory} (hm : Memory.wf m = true) (base : Timestamp) {ws : List Timestamp}
    (hlen : ws.length = 40) {i : Nat} (hi : i < ws.length) :
    pulseBit (Memory.writeAll m (writesFrom 2 (timestampsOf base ws))) i = bitOfWidth ws[i] := by
  have entry := Memory.read_writeAll_writesFrom (vs := timestampsOf base ws) (k := 2) hm (by simp [hlen])
  rw [← bitOfWidth_eq, ← pulseDifference_eq, show i + 2 = 2 + i by omega, show i + 3 = 2 + (i + 1) by omega,
    entry i (by simp; omega), entry (i + 1) (by simpa using hi), timestampsOf_succ base ws i hi, pulseDifference,
    BitVec.add_comm, BitVec.add_sub_cancel]

/-! ### The widths of a frame -/

/-- Bit `k` of byte `j` stands at `8 * j + k`, the most significant first (spec/20_memory.md R45). -/
theorem getElem?_flatMap_byteBits : ∀ (bytes : List Byte) (j k : Nat), k < 8 →
    (bytes.flatMap byteBits)[8 * j + k]? = bytes[j]?.map (·.getLsbD (7 - k))
  | [], _, _, _ => by simp
  | b :: bytes, 0, k, hk => by
    rw [List.flatMap_cons, Nat.mul_zero, Nat.zero_add, List.getElem?_append_left (by simpa [byteBits] using hk)]
    simp [byteBits, hk]
  | b :: bytes, j + 1, k, hk => by
    rw [List.flatMap_cons, List.getElem?_append_right (by simp [byteBits]; omega), List.getElem?_cons_succ,
      ← getElem?_flatMap_byteBits bytes j k hk]
    congr 1
    simp [byteBits]
    omega

/-- A width of the two classes tells its bit (spec/30_encoding.md R61). -/
theorem bitOfWidth_frameWidth {wZero wOne : Timestamp} (hz : wZero.toNat < 100) (ho : 100 ≤ wOne.toNat) (b : Bool) :
    bitOfWidth (if b then wOne else wZero) = b := by
  cases b with
  | true => exact (bitOfWidth_iff wOne).2 ho
  | false => exact (bitOfWidth_eq_false_iff wZero).2 (Nat.le_of_lt_succ hz)

/-- The eight bits of a byte are its value (R62). -/
theorem sum_byteBits : ∀ b : Byte,
    ((List.range 8).map fun k => (b.getLsbD (7 - k)).toNat * 2 ^ (7 - k)).sum = b.toNat := by decide

/-- The buffer after a frame is written into it. -/
def frameBuffer (m : Memory) (base wZero wOne : Timestamp) (bytes : List Byte) : Memory :=
  Memory.writeAll m (writesFrom 2 (timestampsOf base (frameWidths wZero wOne bytes)))

/-- Five bytes written as a frame are the bytes of R94. -/
theorem frameByte_frameBuffer {m : Memory} (hm : Memory.wf m = true) (base : Timestamp) {wZero wOne : Timestamp}
    (hz : wZero.toNat < 100) (ho : 100 ≤ wOne.toNat) {bytes : List Byte} (hlen : bytes.length = 5) {j : Nat} {b : Byte}
    (hb : bytes[j]? = some b) : frameByte (frameBuffer m base wZero wOne bytes) j = b.toNat := by
  have hlen' : (frameWidths wZero wOne bytes).length = 40 := by
    simp [frameWidths, List.length_flatMap, byteBits, hlen]
  rw [← sum_byteBits b]
  refine congrArg List.sum (List.map_congr_left fun k hk => ?_)
  have hbit := getElem?_flatMap_byteBits bytes j k (List.mem_range.1 hk)
  rw [hb, Option.map_some, List.getElem?_eq_some_iff] at hbit
  obtain ⟨hlt, hbit⟩ := hbit
  have hi : 8 * j + k < (frameWidths wZero wOne bytes).length := by simpa [frameWidths] using hlt
  have hbit' : pulseBit (frameBuffer m base wZero wOne bytes) (8 * j + k) = b.getLsbD (7 - k) := by
    rw [frameBuffer, pulseBit_widths hm base hlen' hi]
    simp only [frameWidths, List.getElem_map, hbit]
    exact bitOfWidth_frameWidth hz ho _
  rw [hbit']

/-- A decode ends with Ok exactly on a match. -/
theorem afterDecode_status_ok_iff (s : State) (m : Memory) :
    (s.afterDecode m).status = .ok ↔ frameMatches m = true := by
  rw [State.afterDecode_status]
  cases frameMatches m <;> decide

/-- A stimulus requested of an idle block without other inputs is decoded. -/
theorem steps_issue {s : State} {x : Stimulus} {m : Memory} {n : Nat} (hp : s.phase = .idle) (hin : s.inputs = [])
    (hm : m = Memory.writeAll s.cb (Stimulus.writes x)) (hn : n = if frameMatches m then 128 else 125) :
    steps n (s.issue x) = .next { (s.issue x).afterDecode m with
      cb := landed n (s.issue x), inputs := (s.issue x).inputs.drop n } := by
  have hinputs : (s.issue x).inputs = [Stimulus.request x] := by rw [State.issue, hin, List.nil_append]
  have hinput : (s.issue x).input = Stimulus.request x := by rw [State.input, hinputs, List.headD_cons]
  exact transactionComputesDecode (s.issue x) m n hp (by rw [State.rst, hinput]; rfl) (by rw [State.start, hinput]; rfl)
    (by rw [hm, hinput]; rfl) hn (by simp [hinputs])

/-- Settles O3: the request is a transaction on a buffer whose frame bytes are the five bytes. -/
theorem frameStimulusDecodesToItsBytes : Obligations.FrameStimulusDecodesToItsBytes := by
  intro s base wZero wOne b0 b1 b2 b3 b4 hp hin hwf hz ho
  obtain ⟨m, hm⟩ : ∃ m, m = frameBuffer s.cb base wZero wOne [b0, b1, b2, b3, b4] := ⟨_, rfl⟩
  have hbyte : ∀ {j : Nat} {b : Byte}, [b0, b1, b2, b3, b4][j]? = some b → frameByte m j = b.toNat := fun hb =>
    hm ▸ frameByte_frameBuffer hwf base hz ho rfl hb
  have hreg : ∀ {j : Nat} {b : Byte}, [b0, b1, b2, b3, b4][j]? = some b → BitVec.ofNat 8 (frameByte m j) = b :=
    fun hb => by rw [hbyte hb, BitVec.ofNat_toNat, BitVec.setWidth_eq]
  refine ⟨_, _, by split <;> decide, steps_issue hp hin hm rfl, rfl, hreg (j := 0) rfl, hreg (j := 1) rfl,
    hreg (j := 2) rfl, hreg (j := 3) rfl, hreg (j := 4) rfl, ?_⟩
  dsimp only
  rw [afterDecode_status_ok_iff, frameMatches, decide_eq_true_eq, frameSum, hbyte (j := 0) rfl, hbyte (j := 1) rfl,
    hbyte (j := 2) rfl, hbyte (j := 3) rfl, hbyte (j := 4) rfl, eq_comm]

end Sys2Proof.Machine
end

section
/-! PROOFS. The invariant of the reachable states (spec/10_state.md section 9) is kept by every step, and a decode that
is left alone comes to `done` (spec/40_sequence_control.md section 4). -/

namespace Sys2Proof.Machine

/-! ### A micro-operation keeps each part of the invariant -/

/-- Below the bound PACK counts. -/
theorem nextIndex_val {i : Fin 41} (h : i.val ≤ 39) : (nextIndex i).val = i.val + 1 :=
  congrArg Fin.val (nextIndex_of_lt (k := ⟨i.val + 1, by omega⟩) rfl)

theorem phaseIndexLegal_afterOp {s : State} (h : PhaseIndexLegal s) : PhaseIndexLegal (s.afterOp s.phase) := by
  obtain ⟨hidle, hloop, htail⟩ := h
  cases hp : s.phase with
  | idle =>
    have hi := hidle (.inl hp)
    simp only [PhaseIndexLegal, State.afterOp]
    split <;> simpa using hi
  | init => simp [PhaseIndexLegal, State.afterOp]
  | diff | cmp =>
    have hle : s.i.val ≤ 39 := hloop (by simp [hp])
    simp [PhaseIndexLegal, State.afterOp, hle]
  | pack =>
    have hle : s.i.val ≤ 39 := hloop (.inr (.inr hp))
    simp only [PhaseIndexLegal, State.afterOp, nextIndex_val hle]
    split <;> simp <;> omega
  | chk =>
    have hi : s.i.val = 40 := htail (by simp [hp])
    simp only [PhaseIndexLegal, State.afterOp]
    split <;> simp [hi]
  | sum | hum | tmp | ok | done =>
    have hi : s.i.val = 40 := htail (by simp [hp])
    simp [PhaseIndexLegal, State.afterOp, hi]

theorem statusNeverTimeout_afterOp {s : State} (h : StatusNeverTimeout s) (i : Instr) :
    StatusNeverTimeout (s.afterOp i) := by
  cases i with
  | init => exact .inr rfl
  | ok => exact .inl rfl
  | pack => simpa only [StatusNeverTimeout, State.afterOp, State.packBit_status] using h
  | _ => exact h

/-- A decode past INIT does not hold the status of an earlier one. -/
theorem status_ne_ok_of_running {s : State} (h : OkDescribesFrame s)
    (hp : ¬(s.phase = .done ∨ s.phase = .idle ∨ s.phase = .init)) : s.status ≠ .ok :=
  fun hs => hp (h hs).1

theorem okDescribesFrame_afterOp {s : State} (hok : OkDescribesFrame s) (hprog : PipelineProgress s) :
    OkDescribesFrame (s.afterOp s.phase) := by
  cases hp : s.phase with
  | idle =>
    intro hs
    obtain ⟨-, hframe⟩ := hok hs
    refine ⟨?_, hframe⟩
    simp only [State.afterOp]
    split <;> simp
  | done =>
    intro hs
    exact ⟨.inr (.inl rfl), (hok hs).2⟩
  | init => exact nofun
  | ok =>
    obtain ⟨-, hverdict, hhum, htemp⟩ := hprog
    exact fun _ => ⟨.inl rfl, hverdict (.inr (.inr hp)), hhum (.inr hp), htemp hp⟩
  | pack =>
    have hne := status_ne_ok_of_running hok (by simp [hp])
    exact fun hs => absurd (by simpa [State.afterOp] using hs) hne
  | diff | cmp | sum | chk | hum | tmp =>
    have hne := status_ne_ok_of_running hok (by simp [hp])
    exact fun hs => absurd hs hne

/-- What the phases of the tail have established holds in any other phase. -/
theorem pipelineProgress_of_phase {s : State}
    (h : ¬(s.phase = .chk ∨ s.phase = .hum ∨ s.phase = .tmp ∨ s.phase = .ok)) : PipelineProgress s := by
  simp only [not_or] at h
  simp [PipelineProgress, h]

theorem pipelineProgress_afterOp {s : State} (h : PipelineProgress s) : PipelineProgress (s.afterOp s.phase) := by
  obtain ⟨hsum, hverdict, hhum, -⟩ := h
  cases hp : s.phase with
  | sum => exact ⟨fun _ => checksum_toNat s.b0 s.b1 s.b2 s.b3, nofun, nofun, nofun⟩
  | chk =>
    by_cases hm : s.sum = s.b4
    · have hmatch : checksumMatches s.sum s.b4 = true := decide_eq_true hm
      refine ⟨?_, fun _ => ⟨hmatch, hm, hsum hp⟩, ?_, ?_⟩ <;> simp [State.afterOp, hmatch]
    · exact pipelineProgress_of_phase (by simp [State.afterOp, checksumMatches, hm])
  | hum => exact ⟨nofun, fun _ => hverdict (.inl hp), fun _ => rawHumidity_toNat s.b0 s.b1, nofun⟩
  | tmp =>
    exact ⟨nofun, fun _ => hverdict (.inr (.inl hp)), fun _ => hhum (.inl hp),
      fun _ => signedTemperature_toInt s.b2 s.b3⟩
  | idle | pack => exact pipelineProgress_of_phase (by simp only [State.afterOp]; split <;> simp)
  | init | diff | cmp | ok | done => exact pipelineProgress_of_phase (by simp [State.afterOp])

theorem matchTellsStatus_afterOp {s : State} (h : MatchTellsStatus s) (hok : OkDescribesFrame s)
    (hprog : PipelineProgress s) : MatchTellsStatus (s.afterOp s.phase) := by
  cases hp : s.phase with
  | idle => exact fun _ => h (.inr (.inl hp))
  | done => exact fun _ => h (.inl hp)
  | chk =>
    have hne := status_ne_ok_of_running hok (by simp [hp])
    cases hm : checksumMatches s.sum s.b4 <;> simp [State.afterOp, hm, hne]
  | ok =>
    obtain ⟨-, hverdict, -, -⟩ := hprog
    obtain ⟨hmatched, -, -⟩ := hverdict (.inr (.inr hp))
    exact fun _ => iff_of_true hmatched rfl
  | pack =>
    simp only [MatchTellsStatus, State.afterOp]
    split <;> simp
  | init | diff | cmp | sum | hum | tmp => simp [State.afterOp]

theorem blockInvariant_afterOp {s : State} (h : BlockInvariant s) : BlockInvariant (s.afterOp s.phase) := by
  obtain ⟨hlegal, hstatus, hok, hprog, hmatch, hwf⟩ := h
  exact ⟨phaseIndexLegal_afterOp hlegal, statusNeverTimeout_afterOp hstatus _, okDescribesFrame_afterOp hok hprog,
    pipelineProgress_afterOp hprog, matchTellsStatus_afterOp hmatch hok hprog, (s.afterOp_cb _).symm ▸ hwf⟩

/-! ### A step keeps the invariant -/

/-- Cleared registers, an idle block and a status other than Ok meet the invariant, whatever `HUM` and `TEMP` are. -/
theorem blockInvariant_resetRegs {s : State} (hwf : Memory.wf s.cb = true) : BlockInvariant s.resetRegs :=
  ⟨⟨fun _ => .inl rfl, nofun, nofun⟩, .inr rfl, nofun, pipelineProgress_of_phase nofun, fun _ => ⟨nofun, nofun⟩, hwf⟩

/-- Settles O34: the reset state is what `resetRegs` makes of a state with an empty buffer. -/
theorem resetSatisfiesInvariant : Obligations.ResetSatisfiesInvariant :=
  blockInvariant_resetRegs (s := { State.reset with resets := 0 }) Memory.wf_reset

/-- The host's writes touch no register and keep the buffer's canonical form. -/
theorem blockInvariant_landWrites {s : State} (h : BlockInvariant s) : BlockInvariant s.landWrites := by
  obtain ⟨hlegal, hstatus, hok, hprog, hmatch, hwf⟩ := h
  exact ⟨hlegal, hstatus, hok, hprog, hmatch, Memory.wf_writeAll _ hwf⟩

/-- Settles O35: a step lands the host's writes and then resets or executes the operation in PHASE, and each keeps the
invariant. -/
theorem stepKeepsInvariant : Obligations.StepKeepsInvariant := by
  intro s t hs h
  have hland := blockInvariant_landWrites hs
  obtain ⟨-, rfl⟩ | ⟨-, -, rfl⟩ := step_next_cases h
  · obtain ⟨-, -, -, -, -, hwf⟩ := hland
    exact blockInvariant_resetRegs hwf
  · exact blockInvariant_afterOp hland

/-! ### Every decode ends -/

/-- The steps left until `done` when the checksum matches; a mismatch leaves out HUM, TMP and OK. -/
def stepsToDone (s : State) : Nat :=
  match s.phase with
  | .init => 126
  | .diff => 3 * (40 - s.i.val) + 5
  | .cmp => 3 * (40 - s.i.val) + 4
  | .pack => 3 * (40 - s.i.val) + 3
  | .sum => 5
  | .chk => 4
  | .hum => 3
  | .tmp => 2
  | .ok => 1
  | .idle | .done => 0

theorem stepsToDone_le (s : State) : stepsToDone s ≤ 126 := by
  unfold stepsToDone
  split <;> omega

/-- An operation of a decode goes on with the decode and takes one off the steps left. -/
theorem stepsToDone_afterOp {s : State} (h : PhaseIndexLegal s) (hidle : s.phase ≠ .idle) (hdone : s.phase ≠ .done) :
    (s.afterOp s.phase).phase ≠ .idle ∧ stepsToDone (s.afterOp s.phase) < stepsToDone s := by
  obtain ⟨-, hloop, -⟩ := h
  cases hp : s.phase with
  | idle => exact absurd hp hidle
  | done => exact absurd hp hdone
  | pack =>
    have hle : s.i.val ≤ 39 := hloop (.inr (.inr hp))
    simp only [State.afterOp, stepsToDone, hp, nextIndex_val hle]
    split <;> simp <;> omega
  | chk => cases hm : checksumMatches s.sum s.b4 <;> simp [State.afterOp, stepsToDone, hp, hm]
  | init | diff | cmp | sum | hum | tmp | ok => simp [State.afterOp, stepsToDone, hp]

/-- A decode left alone for as many steps as are left comes to `done`. -/
theorem exists_steps_done (k : Nat) : ∀ {s : State}, BlockInvariant s → s.phase ≠ .idle → stepsToDone s ≤ k →
    Undisturbed k s → ∃ (n : Nat) (t : State), n ≤ k ∧ steps n s = .next t ∧ t.done = true := by
  induction k with
  | zero =>
    intro s h hidle hk _
    obtain ⟨hlegal, -⟩ := h
    have hdone : s.phase = .done := by
      by_contra hdone
      obtain ⟨-, hlt⟩ := stepsToDone_afterOp hlegal hidle hdone
      omega
    exact ⟨0, s, Nat.le_refl 0, rfl, decide_eq_true hdone⟩
  | succ k ih =>
    intro s h hidle hk hu
    by_cases hdone : s.phase = .done
    · exact ⟨0, s, Nat.zero_le _, rfl, decide_eq_true hdone⟩
    · obtain ⟨hr, hc, -⟩ := quiet_of_undisturbed hu
      obtain ⟨hlegal, -⟩ := blockInvariant_landWrites h
      have hstep := step_of_exec hr hc (exec_eq_afterOp s.phase s.landWrites)
      obtain ⟨hidle', hlt⟩ := stepsToDone_afterOp hlegal hidle hdone
      obtain ⟨n, t, hn, hsteps, ht⟩ := ih (stepKeepsInvariant _ _ h hstep) hidle'
        (Nat.le_of_lt_succ (Nat.lt_of_lt_of_le hlt hk)) (undisturbed_tail hu (by simp))
      refine ⟨n + 1, t, Nat.succ_le_succ hn, ?_, ht⟩
      rw [steps, hstep]
      exact hsteps

/-- Settles O46: the steps left until `done` are at most 126, and each undisturbed step takes one off. -/
theorem everyDecodeReachesDone : Obligations.EveryDecodeReachesDone :=
  fun s h hidle hu => exists_steps_done 126 h hidle (stepsToDone_le s) hu

end Sys2Proof.Machine
end

section
/-! PROOFS. The step: what it does in each case (spec/40_sequence_control.md R80, R82, R83), its reset and refusal, the
successor table (R91), and which steps change a result. -/

namespace Sys2Proof.Machine

/-! ### The three cases of a step -/

theorem step_of_rst {s : State} (h : s.rst = true) : step s = .next s.landWrites.resetRegs.advance := by
  rw [step_eq, if_pos h]

theorem step_of_racing {s : State} (hr : s.rst = false) (hc : s.racing = true) :
    step s = .refused .captureWriteDuringDecode := by
  rw [step_eq, hr, hc]
  rfl

theorem step_of_quiet {s : State} (hr : s.rst = false) (hc : s.racing = false) :
    step s = .next (s.landWrites.afterOp s.phase).advance :=
  step_of_exec hr hc (exec_eq_afterOp _ _)

/-- A write races when it meets a running decode in `CB[2..42]`. -/
theorem racing_iff (s : State) :
    s.racing = true ↔ s.phase ≠ .idle ∧ s.phase ≠ .done ∧ ∃ w ∈ s.input.writes, 2 ≤ w.index.val := by
  simp [State.racing, State.busy, State.done, and_assoc]

/-- No write races with an idle block or in DONE. -/
theorem racing_of_idle_or_done {s : State} (h : s.phase = .idle ∨ s.phase = .done) : s.racing = false := by
  rw [Bool.eq_false_iff, ne_eq, racing_iff]
  exact fun ⟨hidle, hdone, _⟩ => h.elim hidle hdone

/-- Settles O36: `exec` answers `afterOp`, and the step's three cases are told apart by `rst` and `racing`. -/
theorem everyStateHasNextState : Obligations.EveryStateHasNextState := by
  refine ⟨fun i s => ⟨_, exec_eq_afterOp i s⟩, fun s => ⟨fun h => ?_, fun ⟨hr, hc⟩ => step_of_racing hr hc,
    racing_iff s⟩⟩
  cases hr : s.rst with
  | true => exact ⟨_, step_of_rst hr⟩
  | false => exact ⟨_, step_of_quiet hr (h.resolve_left (by simp [hr]))⟩

/-- Settles O8: such a write makes the step a racing one. -/
theorem concurrentCaptureWriteRefused : Obligations.ConcurrentCaptureWriteRefused :=
  fun s w hr hidle hdone hw h2 => step_of_racing hr ((racing_iff s).2 ⟨hidle, hdone, w, hw, h2⟩)

/-- Settles O6: the step is the reset case, and `resetRegs` writes every register but keeps buffer and inputs. -/
theorem resetOverridesEverything : Obligations.ResetOverridesEverything :=
  fun _ h => ⟨_, _, _, step_of_rst h⟩

/-- Settles O4: the PHASE word decodes to the operation in PHASE, and the step without reset and race executes it. -/
theorem stepRunsDecodedOperation : Obligations.StepRunsDecodedOperation := by
  refine ⟨fun s => ⟨s.phase, by cases s.phase <;> rfl, s.fetch_eq⟩, fun s i hr hc hi => ?_⟩
  obtain rfl : s.phase = i := Except.ok.inj (s.fetch_eq.symm.trans hi)
  rw [step_of_quiet hr hc, ← State.landWrites, exec_eq_afterOp]
  rfl

/-! ### Inputs -/

/-- Settles O28: no operation writes the two fields, a step takes one input, and only its reset case counts. -/
theorem stepsUseOneInputAndCountResets : Obligations.StepsUseOneInputAndCountResets := by
  refine ⟨fun i s t h => ?_, fun s t h => ?_⟩
  · rw [eq_afterOp_of_exec h]
    exact ⟨s.afterOp_inputs i, s.afterOp_resets i⟩
  · obtain ⟨hr, rfl⟩ | ⟨hr, -, rfl⟩ := step_next_cases h <;> simp [hr]

/-- Inputs that agree on `rst`, on the host's writes and on what comes later make a step the same, unless IDLE reads
`start`. -/
theorem step_congr_inputs {s s' : State} {l : List StepInput} (hs' : s' = { s with inputs := l })
    (hrst : s'.rst = s.rst) (hwrites : s'.input.writes = s.input.writes) (htail : l.tail = s.inputs.tail)
    (h : s.phase ≠ .idle ∨ s.rst = true) : step s' = step s := by
  have hland : s'.landWrites = { s.landWrites with cb := s.landWrites.cb, inputs := l } := by
    rw [State.landWrites, State.landWrites, hwrites, hs']
  cases hr : s.rst with
  | true =>
    rw [step_of_rst (hrst.trans hr), step_of_rst hr, hland, State.advance, State.advance]
    simp only [State.resetRegs_inputs, State.landWrites_inputs, htail]
    rfl
  | false =>
    have hidle : s.phase ≠ .idle := h.resolve_right (by simp [hr])
    have hphase : s'.phase = s.phase := by rw [hs']
    have hrace : s'.racing = s.racing := by simp only [State.racing, State.busy, State.done, hphase, hwrites]
    cases hc : s.racing with
    | true => rw [step_of_racing (hrst.trans hr) (hrace.trans hc), step_of_racing hr hc]
    | false =>
      have hexec : exec s'.phase s'.landWrites =
          .next { s.landWrites.afterOp s.phase with cb := s.landWrites.cb, inputs := l } := by
        rw [hphase, hland]
        exact exec_with_host hidle _ _ (fun _ _ _ => rfl) (exec_eq_afterOp _ _)
      rw [step_of_exec (hrst.trans hr) (hrace.trans hc) hexec, step_of_quiet hr hc, State.advance, State.advance]
      simp only [State.afterOp_inputs, State.landWrites_inputs, htail, State.afterOp_cb]

/-- Settles O7: inputs that differ in `start` agree on all that a step other than IDLE's reads. -/
theorem startIgnoredOutsideIdle : Obligations.StartIgnoredOutsideIdle := by
  intro s x rest b hin h
  have hinput : s.input = x := by rw [State.input, hin, List.headD_cons]
  refine step_congr_inputs rfl ?_ ?_ (by rw [hin]; rfl) (by rwa [State.rst, hinput])
  · rw [State.rst, State.rst, hinput]
    rfl
  · rw [hinput]
    rfl

/-! ### Idling -/

/-- Settles O9: an idle block resets or executes its operation, and either way its buffer is the old one with the
host's writes. -/
theorem hostWritesLandInIdle : Obligations.HostWritesLandInIdle := by
  intro s hwf hidle
  obtain ⟨-, hnext⟩ := everyStateHasNextState
  obtain ⟨t, ht⟩ := (hnext s).1 (.inr (racing_of_idle_or_done (.inl hidle)))
  refine ⟨t, ht, ?_, fun k hk => ?_⟩
  · rw [step_cb ht]
    exact Memory.wf_writeAll _ hwf
  · rw [State.readEntry, if_pos hk, step_cb ht, Memory.read_writeAll k _ hwf]

/-- An idle block without `rst` and `start` only takes the host's writes and uses up its input. -/
theorem step_of_idle {s : State} (hp : s.phase = .idle) (hr : s.rst = false) (hs : s.start = false) :
    step s = .next { s with cb := Memory.writeAll s.cb s.input.writes, inputs := s.inputs.tail } := by
  have hs' : s.landWrites.start = false := hs
  rw [step_of_quiet hr (racing_of_idle_or_done (.inl hp)), hp, State.afterOp, hs', ← hp]
  rfl

/-- The ports at the coming step, when an input without `rst` and `start` or none comes next. -/
theorem ports_of_quiet_inputs {n : Nat} {s : State} (h : ∀ x ∈ s.inputs.take (n + 1), x.rst = false ∧ x.start = false) :
    s.rst = false ∧ s.start = false := by
  rw [State.rst, State.start, State.input]
  cases hin : s.inputs with
  | nil => exact ⟨rfl, rfl⟩
  | cons x rest => exact h x (by simp [hin])

theorem mem_take_succ_of_mem_take_tail {α : Type} {x : α} {n : Nat} : ∀ {l : List α}, x ∈ l.tail.take n →
    x ∈ l.take (n + 1)
  | [], h => by simp at h
  | _ :: _, h => List.mem_cons_of_mem _ h

/-- Settles O39: by induction on the number of steps, each of which is `step_of_idle`. -/
theorem idleKeepsLatestReading : Obligations.IdleKeepsLatestReading := by
  intro n
  induction n with
  | zero => intro s _ _; rfl
  | succ n ih =>
    intro s hp hq
    obtain ⟨hr, hs⟩ := ports_of_quiet_inputs hq
    have hq' : ∀ x ∈ s.inputs.tail.take n, x.rst = false ∧ x.start = false := fun x hx =>
      hq x (mem_take_succ_of_mem_take_tail hx)
    rw [steps, step_of_idle hp hr hs]
    refine (ih { s with cb := Memory.writeAll s.cb s.input.writes, inputs := s.inputs.tail } hp hq').trans ?_
    rw [← landed_succ n (s := s) rfl rfl, ← drop_succ n (s := s) rfl]

/-! ### Phases and results -/

/-- Settles O37: the reset case goes to IDLE, and each operation writes the phase of its row. -/
theorem phaseFollowsSuccessorTable : Obligations.PhaseFollowsSuccessorTable := by
  intro s t h
  obtain ⟨hr, rfl⟩ | ⟨hr, -, rfl⟩ := step_next_cases h
  · exact ⟨fun _ => rfl, fun hr' => absurd (hr.symm.trans hr') nofun⟩
  · refine ⟨fun hr' => absurd (hr.symm.trans hr') nofun, fun _ => ?_⟩
    refine ⟨fun hp h => ?_, fun hp h => ?_, fun hp => ?_, fun hp => ?_, fun hp => ?_, fun hp h => ?_, fun hp h => ?_,
      fun hp => ?_, fun hp h => ?_, fun hp h => ?_, fun hp => ?_, fun hp => ?_, fun hp => ?_, fun hp => ?_⟩ <;>
      rw [State.advance_phase, hp, State.afterOp]
    · exact if_neg (Bool.eq_false_iff.1 h)
    · exact if_pos h
    · exact if_neg (Nat.ne_of_lt (Nat.lt_succ_of_le h))
    · exact if_pos h
    · exact if_pos (decide_eq_true h)
    · exact if_neg fun hm => h (of_decide_eq_true hm)

/-- Settles O38: in DONE no write races, so the step resets or executes DONE, which writes PHASE only. -/
theorem doneLastsOneState : Obligations.DoneLastsOneState := by
  intro s hdone
  have hp : s.phase = .done := of_decide_eq_true hdone
  cases hr : s.rst with
  | true => exact ⟨_, step_of_rst hr, rfl, rfl, nofun⟩
  | false =>
    refine ⟨_, step_of_quiet hr (racing_of_idle_or_done (.inr hp)), ?_⟩
    rw [hp]
    exact ⟨rfl, rfl, fun _ => ⟨rfl, rfl, rfl⟩⟩

/-- Settles O30: a reset writes `ChecksumError`; of the operations only INIT and OK write `STATUS`, and only HUM and TMP
a value. -/
theorem resultsChangeOnlyByTheirOperations : Obligations.ResultsChangeOnlyByTheirOperations := by
  intro s t h
  obtain ⟨hr, rfl⟩ | ⟨-, -, rfl⟩ := step_next_cases h
  · exact ⟨nofun, nofun, fun _ => .inr hr, fun _ => .inr hr⟩
  · cases hp : s.phase with
    | init => exact ⟨nofun, nofun, fun h => absurd rfl h, fun h => absurd rfl h⟩
    | hum => exact ⟨.inl, id, fun _ => .inl rfl, fun h => absurd rfl h⟩
    | tmp => exact ⟨.inl, id, fun h => absurd rfl h, fun _ => .inl rfl⟩
    | ok => exact ⟨fun _ => .inr rfl, nofun, fun h => absurd rfl h, fun h => absurd rfl h⟩
    | pack => simp [State.afterOp]
    | idle | diff | cmp | sum | chk | done => exact ⟨.inl, id, fun h => absurd rfl h, fun h => absurd rfl h⟩

end Sys2Proof.Machine
end

section
/-! PROOFS. The micro-operations: who writes and who reads (spec/10_state.md R11, spec/20_memory.md R41, R42), and what
each of IDLE, INIT, DIFF, PACK, CHK, TMP, OK and DONE does. -/

namespace Sys2Proof.Machine

/-! ### The register inventory -/

/-- Settles O25: each operation's `afterOp` updates the registers listed for it and no other. -/
theorem operationsWriteOnlyTheirRegisters : Obligations.OperationsWriteOnlyTheirRegisters := by
  intro i s t r h hr
  rw [eq_afterOp_of_exec h]
  cases i with
  | idle | done => cases r with
    | phase => exact absurd (by decide) hr
    | _ => rfl
  | init => cases r with
    | hum | temp => rfl
    | _ => exact absurd (by decide) hr
  | diff => cases r with
    | phase | w => exact absurd (by decide) hr
    | _ => rfl
  | cmp => cases r with
    | phase | bit => exact absurd (by decide) hr
    | _ => rfl
  | pack => cases r with
    | phase | i | b0 | b1 | b2 | b3 | b4 => exact absurd (by decide) hr
    | _ => simp [State.regValue, State.afterOp]
  | sum => cases r with
    | phase | sum => exact absurd (by decide) hr
    | _ => rfl
  | chk => cases r with
    | phase | matched => exact absurd (by decide) hr
    | _ => rfl
  | hum => cases r with
    | phase | hum => exact absurd (by decide) hr
    | _ => rfl
  | tmp => cases r with
    | phase | temp => exact absurd (by decide) hr
    | _ => rfl
  | ok => cases r with
    | phase | status => exact absurd (by decide) hr
    | _ => rfl

theorem bool_toNat_inj {a b : Bool} : a.toNat = b.toNat ↔ a = b := by
  cases a <;> cases b <;> decide

/-- What an operation writes is a function of the registers it reads, of the buffer and of the inputs. -/
theorem regValue_afterOp_congr {i : Instr} {s s' : State} (hread : ∀ r ∈ readBy i, s.regValue r = s'.regValue r)
    (hcb : s.cb = s'.cb) (hin : s.inputs = s'.inputs) :
    ∀ r ∈ writtenBy i, (s.afterOp i).regValue r = (s'.afterOp i).regValue r := by
  have hstart : s.start = s'.start := by rw [State.start, State.start, State.input, State.input, hin]
  have hentry : ∀ k, s.entryAt k = s'.entryAt k := fun k => State.entryAt_congr fun _ => by rw [hcb]
  cases i with
  | idle => simp [writtenBy, State.regValue, State.afterOp, State.phaseWord, hstart]
  | init | ok | done => simp [writtenBy, State.regValue, State.afterOp, State.phaseWord]
  | diff | cmp | pack | sum | chk | hum | tmp =>
    simp only [readBy, List.forall_mem_cons, State.regValue, BitVec.toNat_inj, Fin.val_inj, bool_toNat_inj] at hread
    simp [writtenBy, State.regValue, State.afterOp, State.phaseWord, hread, hentry]

/-- Settles O26: every operation completes, in `afterOp`, and no list of registers read names a result register. -/
theorem operationsReadOnlyTheirRegisters : Obligations.OperationsReadOnlyTheirRegisters := by
  refine ⟨fun i => by cases i <;> decide, fun i s s' t hread hcb hin h => ⟨_, exec_eq_afterOp i s', ?_⟩⟩
  rw [eq_afterOp_of_exec h]
  exact regValue_afterOp_congr hread hcb hin

/-- Any other buffer is carried along by an operation other than DIFF. -/
theorem State.afterOp_with_cb (s : State) (m : Memory) {i : Instr} (hi : i ≠ .diff) :
    State.afterOp { s with cb := m } i = { s.afterOp i with cb := m } := by
  cases i with
  | diff => exact absurd rfl hi
  | pack =>
    simp only [State.afterOp, State.packBit]
    cases frameByteIndex s.i with
    | none => rfl
    | some j => fin_cases j <;> rfl
  | _ => rfl

/-- Settles O29: DIFF reads two entries of `CB[2..42]` at most, and no other operation reads any. -/
theorem onlyPayloadEntriesMatterAndOnlyToDiff : Obligations.OnlyPayloadEntriesMatterAndOnlyToDiff := by
  intro i s t m hm h
  by_cases hi : i = .diff
  · subst hi
    have hpay : SamePayload m s.cb := hm rfl
    rw [eq_afterOp_of_exec h]
    exact exec_with_host (i := .diff) nofun m s.inputs hpay (exec_eq_afterOp .diff s)
  · rw [eq_afterOp_of_exec h, exec_eq_afterOp, State.afterOp_with_cb s m hi]

end Sys2Proof.Machine
end

section
/-! PROOFS. The micro-operations one by one (spec/40_sequence_control.md section 3, spec/41_comparator_bit_decoder.md,
spec/43_checksum_validator.md, spec/44_value_extractor.md), and runs of SUM and CHK and of PACK. -/

namespace Sys2Proof.Machine

/-! ### The sequence -/

/-- Settles O10: IDLE answers `afterOp`, whose phase `start` selects. -/
theorem idleAcceptsStartOnly : Obligations.IdleAcceptsStartOnly := by
  refine fun s => ⟨fun h => ?_, fun h => ?_⟩ <;> rw [exec_eq_afterOp, State.afterOp, State.start, h] <;> rfl

/-- Settles O11: INIT answers `afterOp`, which clears the working registers. -/
theorem initBeginsFreshReading : Obligations.InitBeginsFreshReading :=
  fun s => exec_eq_afterOp .init s

/-- Settles O22: OK and DONE answer `afterOp`. -/
theorem okAndDoneCompleteADecode : Obligations.OkAndDoneCompleteADecode :=
  ⟨exec_eq_afterOp .ok, exec_eq_afterOp .done⟩

/-! ### DIFF and PACK -/

/-- The width of a pulse whose timestamps are in order. -/
theorem pulseDifference_of_le {a b : Timestamp} (h : a.toNat ≤ b.toNat) :
    (pulseDifference a b).toNat = b.toNat - a.toNat := by
  have := b.isLt
  rw [pulseDifference_toNat]
  omega

/-- The width of a pulse whose timestamps are out of order (decision D7). -/
theorem pulseDifference_of_lt {a b : Timestamp} (h : b.toNat < a.toNat) :
    (pulseDifference a b).toNat = b.toNat + 2 ^ 32 - a.toNat := by
  have := a.isLt
  rw [pulseDifference_toNat]
  omega

/-- An entry that the read primitive gives is the one DIFF takes. -/
theorem State.entryAt_of_readEntry {s : State} {k : Nat} {a : Timestamp} (h : s.readEntry k = some a) :
    s.entryAt k = a := by
  rw [State.entryAt, h, Option.getD_some]

/-- Settles O12: DIFF answers `afterOp`, which writes the difference of the two entries to `W`. -/
theorem diffFormsPulseWidth : Obligations.DiffFormsPulseWidth := by
  intro s a b ha hb
  refine ⟨pulseDifference a b, ?_, pulseDifference_of_le, fun h => ?_⟩
  · rw [exec_eq_afterOp, State.afterOp, State.entryAt_of_readEntry ha, State.entryAt_of_readEntry hb]
  · have hv := pulseDifference_of_lt h
    have := a.isLt
    exact ⟨hv, by omega⟩

/-- Settles O13: below the bound DIFF takes two successive entries of the buffer, which are in order. -/
theorem monotonicBufferGivesElapsedTicks : Obligations.MonotonicBufferGivesElapsedTicks := by
  intro s hmono hi
  have hle := hmono ⟨s.i.val + 2, by omega⟩ (Nat.le_add_left 2 _)
  refine ⟨_, execDiff_of_lt hi, ?_⟩
  rw [pulseDifference_of_le hle]
  exact Nat.add_sub_cancel' hle

/-- Settles O16: past the last bit the free values stand for the entry and the count. -/
theorem bitPhasesStepOnPastLastBit : Obligations.BitPhasesStepOnPastLastBit :=
  fun _ h => ⟨⟨_, execDiff_past_end h⟩, ⟨_, execPack_past_end h⟩⟩

/-! ### The checksum -/

/-- Settles O18: CHK answers `afterOp`, where `checksumMatches` decides on flag and phase. -/
theorem chkComparesAndBranches : Obligations.ChkComparesAndBranches := by
  refine ⟨rfl, fun s => ⟨fun h => ?_, fun h => ?_⟩⟩
  · rw [exec_eq_afterOp, State.afterOp, checksumMatches, decide_eq_true h]
    rfl
  · rw [exec_eq_afterOp, State.afterOp, checksumMatches, decide_eq_false h]
    rfl

/-- Whether byte 4 is the checksum of the four payload bytes. -/
abbrev FrameValid (s : State) : Prop := checksum s.b0 s.b1 s.b2 s.b3 = s.b4

theorem frameValid_iff (s : State) : FrameValid s ↔ s.b4.toNat = payloadSum s := by
  rw [FrameValid, ← BitVec.toNat_inj, checksum_toNat, eq_comm]

/-- SUM and CHK together tell whether the frame held is valid. -/
theorem runOps_sum_chk (s : State) : ∃ t : State, runOps [.sum, .chk] s = .next t ∧
    (t.matched = true ↔ FrameValid s) ∧ (t.matched = false → t.phase = .done) := by
  refine ⟨_, rfl, decide_eq_true_iff, fun h => ?_⟩
  exact if_neg (Bool.eq_false_iff.1 h)

/-- With one byte changed a valid frame is valid no more: the other summands cancel. -/
theorem not_frameValid_setB {s : State} {j : Fin 5} {v : Byte} (h : FrameValid s) (hv : v ≠ s.getB j) :
    ¬ FrameValid (s.setB j v) := by
  intro h'
  rw [FrameValid, checksum] at h h'
  fin_cases j <;> simp [State.setB, State.getB, ← h] at h' hv <;> simp [h'] at hv

/-- Settles O31: flipping a bit changes the byte, and SUM and CHK tell that the frame is not valid. -/
theorem singleBitErrorIsDetected : Obligations.SingleBitErrorIsDetected := by
  intro s j k h
  have hv : s.getB j ^^^ (1#8 <<< k.val) ≠ s.getB j := by
    have hbit : ∀ k : Fin 8, 1#8 <<< k.val ≠ 0#8 := by decide
    intro h
    exact hbit k (by simpa using h)
  obtain ⟨t, ht, hiff, hdone⟩ := runOps_sum_chk (s.setB j (s.getB j ^^^ (1#8 <<< k.val)))
  have hm : t.matched = false :=
    Bool.eq_false_iff.2 fun hm => not_frameValid_setB ((frameValid_iff s).2 h) hv (hiff.1 hm)
  exact ⟨t, ht, hm, hdone hm⟩

/-- Settles O32: the valid byte is `checksum` of the payload. -/
theorem exactlyOneChecksumIsValid : Obligations.ExactlyOneChecksumIsValid := by
  intro s
  refine ⟨checksum s.b0 s.b1 s.b2 s.b3, checksum_toNat _ _ _ _, fun v => ?_⟩
  obtain ⟨t, ht, hiff, -⟩ := runOps_sum_chk { s with b4 := v }
  exact ⟨t, ht, hiff.trans (frameValid_iff _), hiff.trans eq_comm⟩

/-! ### The extractor -/

/-- Settles O21: TMP answers `afterOp`, and `signedTemperature` of the two fields is 0. -/
theorem negativeZeroReadsZero : Obligations.NegativeZeroReadsZero := by
  intro s h2 h3
  have hzero : signedTemperature s.b2 s.b3 = 0x0000#16 := by
    obtain h2 | h2 := h2 <;> rw [h2, h3] <;> decide
  rw [exec_eq_afterOp, State.afterOp, hzero]

/-! ### Eight PACKs -/

/-- Each byte after PACK: the one that `I div 8` names takes the bit, the others stay. -/
theorem State.getB_afterOp_pack (s : State) (j : Fin 5) :
    (s.afterOp .pack).getB j = if s.i.val / 8 = j.val then shiftIn (s.getB j) s.bit else s.getB j := by
  rw [← State.getB_packBit]
  fin_cases j <;> rfl

theorem packBits_cons (b : Bool) (bits : List Bool) (s : State) :
    packBits (b :: bits) s = packBits bits (State.afterOp { s with bit := b } .pack) := by
  rw [packBits, exec_eq_afterOp]

/-- `BIT` is none of the frame bytes. -/
theorem State.getB_with_bit (s : State) (b : Bool) (j : Fin 5) : State.getB { s with bit := b } j = s.getB j := by
  fin_cases j <;> rfl

/-- PACKs that stay within byte `j` shift their bits into it and leave the four others. -/
theorem packBits_within_byte {j : Fin 5} : ∀ (bits : List Bool) {s : State} {n : Nat},
    s.i.val = 8 * j.val + n → n + bits.length ≤ 8 → ∃ t : State, packBits bits s = .next t ∧
      t.i.val = s.i.val + bits.length ∧ t.getB j = bits.foldl shiftIn (s.getB j) ∧
      ∀ j' : Fin 5, j' ≠ j → t.getB j' = s.getB j'
  | [], s, n, _, _ => ⟨s, rfl, rfl, rfl, fun _ _ => rfl⟩
  | b :: bits, s, n, hi, hn => by
    rw [List.length_cons] at hn ⊢
    have hj := j.isLt
    have hdiv : s.i.val / 8 = j.val := by omega
    have hnext : (State.afterOp { s with bit := b } .pack).i.val = s.i.val + 1 := nextIndex_val (i := s.i) (by omega)
    obtain ⟨t, ht, hti, hbyte, hother⟩ := packBits_within_byte (j := j) bits (n := n + 1)
      (s := State.afterOp { s with bit := b } .pack) (by omega) (by omega)
    refine ⟨t, (packBits_cons b bits s).trans ht, by omega, ?_, fun j' hj' => ?_⟩
    · rw [hbyte, State.getB_afterOp_pack, if_pos hdiv, State.getB_with_bit, List.foldl_cons]
    · have hne : s.i.val / 8 ≠ j'.val := fun h => hj' (Fin.ext (h.symm.trans hdiv))
      rw [hother j' hj', State.getB_afterOp_pack, if_neg hne, State.getB_with_bit]

/-- Eight bits shifted in hide what the byte held (spec/42_bit_packer.md R112). -/
theorem foldl_shiftIn_eight {bits : List Bool} (h : bits.length = 8) (b : Byte) :
    (bits.foldl shiftIn b).toNat =
      ((List.range 8).map fun k => (bits.getD k false).toNat * 2 ^ (7 - k)).sum := by
  match bits, h with
  | [x0, x1, x2, x3, x4, x5, x6, x7], _ =>
    rw [← shiftIn_eight_toNat]
    simp only [List.foldl, shiftIn_eq, BitVec.toNat_ofNat]
    omega

/-- Settles O33: the eight PACKs stay within byte `j`, and eight bits fill it. -/
theorem eightPacksFillByteMsbFirst : Obligations.EightPacksFillByteMsbFirst := by
  intro s j bits hi hlen
  obtain ⟨t, ht, hti, hbyte, hother⟩ := packBits_within_byte bits (n := 0) hi (by omega)
  exact ⟨t, ht, by omega, by rw [hbyte, foldl_shiftIn_eight hlen], hother⟩

end Sys2Proof.Machine
end

section
/-! PROOFS. The encoding of the micro-operations (spec/30_encoding.md sections 4 to 6), the reset values
(spec/10_state.md section 8), and the outputs (spec/40_sequence_control.md R85). -/

namespace Sys2Proof.Machine

/-! ### The encoding -/

/-- Settles O1: the eleven words of the table, each evaluated. -/
theorem phaseWordsSelectTabledOperations : Obligations.PhaseWordsSelectTabledOperations := by
  refine ⟨?_, ?_, ?_, ?_, ?_, ?_, ?_, ?_, ?_, ?_, ?_⟩ <;> rfl

theorem decodePhase_encode (i : Instr) : decodePhase (encode i) = .ok i := by
  cases i <;> rfl

/-- A word that decodes is the code of what it decodes to. -/
theorem eq_encode_of_decodePhase {w : PhaseWord} {i : Instr} (h : decodePhase w = .ok i) : w = encode i := by
  unfold decodePhase at h
  split at h
  case h_12 => cases h
  all_goals
    obtain rfl := Except.ok.inj h
    exact BitVec.eq_of_toNat_eq ‹_›

theorem decodePhase_eq_ok_iff (w : PhaseWord) (i : Instr) : decodePhase w = .ok i ↔ w = encode i :=
  ⟨eq_encode_of_decodePhase, fun h => h ▸ decodePhase_encode i⟩

/-- A byte is a code exactly when its upper nibble is 0 and its lower one is that code. -/
theorem eq_encodeByte_iff (b : Byte) (i : Instr) : b = encodeByte i ↔ b.toNat < 16 ∧ b.setWidth 4 = encode i := by
  have hcode := (encode i).isLt
  simp only [encodeByte, ← BitVec.toNat_inj, BitVec.toNat_setWidth]
  omega

theorem decodeByte_eq_ok_iff (b : Byte) (i : Instr) : decodeByte b = .ok i ↔ b = encodeByte i := by
  rw [eq_encodeByte_iff, ← decodePhase_eq_ok_iff, decodeByte]
  split
  · simp [*]
  · simp [*]

theorem decodePhase_reserved : ∀ w : PhaseWord, 11 ≤ w.toNat → decodePhase w = .error (.reservedPhaseCode w) := by
  decide

/-- Settles O2: the decoder is the inverse of the encoder, on words and on bytes, and refuses the words above the
codes. -/
theorem wordsDecodeExactlyAsEncoded : Obligations.WordsDecodeExactlyAsEncoded :=
  ⟨decodePhase_eq_ok_iff, decodeByte_eq_ok_iff, decodePhase_reserved⟩

/-! ### Reset values -/

/-- Settles O5: each value is a field of `State.reset`. -/
theorem resetStateAsSpecified : Obligations.ResetStateAsSpecified :=
  ⟨rfl, rfl, rfl, rfl, rfl, rfl, rfl, rfl, rfl, rfl, rfl, rfl, rfl, rfl⟩

/-! ### Outputs -/

/-- The three status codes are told apart on the port. -/
theorem statusCode_inj {x y : Status} : statusCode x = statusCode y ↔ x = y := by
  cases x <;> cases y <;> decide

/-- The indices that a state reads fit the six bits of the port. -/
theorem outputs_cbIndex_toNat (s : State) : (s.outputs.cbIndex.map fun k => k.toNat) = s.readIndices := by
  have hi := s.i.isLt
  simp only [State.outputs, State.readIndices]
  split
  · simp only [List.map_cons, List.map_nil, BitVec.toNat_ofNat, State.openIndex, State.closeIndex, Config.edgeSkip]
    rw [Nat.mod_eq_of_lt (by omega), Nat.mod_eq_of_lt (by omega)]
  · rfl

/-- From a legal pair the indices lie in the payload (spec/20_memory.md R46). -/
theorem readIndices_bounds {s : State} (h : PhaseIndexLegal s) : ∀ k ∈ s.readIndices, 2 ≤ k ∧ k ≤ 42 := by
  obtain ⟨-, hloop, -⟩ := h
  intro k hk
  rw [State.readIndices] at hk
  split at hk
  · have hle := hloop (.inl ‹_›)
    simp only [List.mem_cons, List.not_mem_nil, or_false, State.openIndex, State.closeIndex, Config.edgeSkip] at hk
    omega
  · simp at hk

/-- Settles O24: each port is its register by definition; the words and indices among them read back. -/
theorem outputsFollowRegisters : Obligations.OutputsFollowRegisters := by
  intro s
  have hi := s.i.isLt
  refine ⟨decide_eq_true_iff, decide_eq_true_iff, statusCode_inj (y := .ok), statusCode_inj (y := .checksumError),
    statusCode_inj (y := .timeout), rfl, rfl, decodePhase_encode s.phase, ?_, rfl, rfl, rfl, rfl, rfl,
    outputs_cbIndex_toNat s, fun h k hk => ?_⟩
  · rw [State.outputs, BitVec.toNat_ofNat, Nat.mod_eq_of_lt (by omega)]
  · refine readIndices_bounds h k.toNat ?_
    rw [← outputs_cbIndex_toNat]
    exact List.mem_map_of_mem hk

end Sys2Proof.Machine
end
